-- ==== Sys2Proof/Word.lean ====
section
/-! DEFINITION. The two word types of RADIXCONV: 16-bit registers and command words (R21, R70), 8-bit buffer bytes (R29). -/

namespace Sys2Proof

/-- A register value or a command word, 16 bits (R21, R70). -/
abbrev Word := BitVec 16

/-- One byte of BUF: one symbol, whatever its width (R29, R55). -/
abbrev Byte := BitVec 8

end Sys2Proof
end

