-- ==== Sys2Proof/Config.lean ====
section
/-! DEFINITION. What the spec leaves open: the size of BUF (R7, D3) and the unspecified bytes (R12, U6). -/

namespace Sys2Proof.Config

/-- DESIGN CHOICE (notes/assumptions/1.md): the highest address of BUF in `State.reset`. R7 leaves
`BUF_SIZE` open in 1..65535 and suggests 4096; every State carries its own size, so a statement about
every state holds for every size. -/
def resetLastAddr : Fin 65535 := 4095

/-- The unspecified byte at an address of BUF that nothing has written since a hardware reset (R35,
R190, U6 case a). The first argument counts the hardware resets, so each reset gives new bytes; for
one reset the byte is fixed, so two reads of it agree (U6). No body: no value can be proved of it. -/
opaque powerOnByte : Nat → Nat → Byte

/-- The k-th unspecified byte a fault, an abort or a read made while BUSY produces (R52, R53, R171,
U6 cases b to e). Each use takes a new k from `State.freeCount`. No body. -/
opaque freeByte : Nat → Byte

end Sys2Proof.Config
end

