-- ==== Sys2Proof/Syntax.lean ====
section
/-! DEFINITION. The eight commands of the opcode map (spec/opcode_table.json, R75), one constructor a row. -/

namespace Sys2Proof

/-- A command of RADIXCONV. The width operands are the numbers the 4-bit fields S and D hold (R72): a
well-formed command has them below 16 (WellFormed.lean); a width outside 1..8 is a legal command
that the engine refuses with ERR_WIDTH (R162). Buffer addresses and lengths are registers, not
operands (R70). -/
inductive Instr where
  /-- NOP, do nothing (R152). -/
  | nop
  /-- CONV S, D: out-of-place conversion, the partial symbol always emitted (R94). -/
  | conv (src2Pow dst2Pow : Nat)
  /-- CONVIP S, D, P: in-place conversion (R112). -/
  | convip (src2Pow dst2Pow : Nat) (emitPartial : Bool)
  /-- N2P32: numeric to printable, 32-symbol alphabet (R136). -/
  | n2p32
  /-- P2N32: printable to numeric, 32-symbol alphabet (R137). -/
  | p2n32
  /-- N2P64: numeric to printable, 64-symbol alphabet (R138). -/
  | n2p64
  /-- P2N64: printable to numeric, 64-symbol alphabet (R139). -/
  | p2n64
  /-- SRST: soft reset (R153). -/
  | srst
deriving DecidableEq, Repr

end Sys2Proof
end

