-- ==== Sys2Proof/WellFormed.lean ====
section
/-! DEFINITION. Which terms of Instr a 16-bit command word can express: each width operand fits the 4-bit field that holds it (R72). -/

namespace Sys2Proof

/-- A width operand fits its 4-bit unsigned field (R72). -/
def widthFits (v : Nat) : Bool := decide (v < 16)

/-- The command has an encoding: both width operands fit their fields (R70, R72). -/
def Instr.wellFormed : Instr → Bool
  | .nop => true
  | .conv a b => widthFits a && widthFits b
  | .convip a b _ => widthFits a && widthFits b
  | .n2p32 => true
  | .p2n32 => true
  | .n2p64 => true
  | .p2n64 => true
  | .srst => true

/-- The six data commands: the ones the engine completes and CMDL can hold (R22, R150). -/
def Instr.isData : Instr → Bool
  | .nop => false
  | .conv _ _ => true
  | .convip _ _ _ => true
  | .n2p32 => true
  | .p2n32 => true
  | .n2p64 => true
  | .p2n64 => true
  | .srst => false

end Sys2Proof
end

