-- ==== Sys2Proof/Decode.lean ====
section
/-! DEFINITION. The command word: its fields (R70), the opcode map (R75), the decoder, total and refusing by name (R74 to R78), the encoder, and the host's decodeTableWord. -/

namespace Sys2Proof

/-- Why a word is no command (R77). -/
inductive DecodeError where
  /-- OP is 0x3 or one of 0x8 to 0xE: reserved for later use. -/
  | reservedOpcode (op : BitVec 4)
  /-- OP is assigned and a reserved bit of the word is set (R74). -/
  | reservedBits
deriving DecidableEq, Repr

/-- OP, bits 15:12 (R70). -/
def opField (w : Word) : BitVec 4 := w.extractLsb' 12 4

/-- S = src2Pow, bits 11:8 (R70, R72). -/
def sField (w : Word) : BitVec 4 := w.extractLsb' 8 4

/-- D = dst2Pow, bits 7:4 (R70, R72). -/
def dField (w : Word) : BitVec 4 := w.extractLsb' 4 4

/-- P = emitPartialTrailingSymbol, bit 3 (R70, R73). -/
def pField (w : Word) : Bool := w.getLsbD 3

/-- Z, bits 2:0, reserved (R74). -/
def zField (w : Word) : BitVec 3 := w.extractLsb' 0 3

/-- The written-out test of R76: which words are legal commands. -/
def legalWord (w : Word) : Bool :=
  if opField w = 0x0 ∨ opField w = 0x4 ∨ opField w = 0x5 ∨ opField w = 0x6 ∨ opField w = 0x7 ∨ opField w = 0xF then
    w.extractLsb' 0 12 == 0
  else if opField w = 0x1 then w.extractLsb' 0 4 == 0
  else if opField w = 0x2 then zField w == 0
  else false

/-- A command without operands: bits 11:0 must be 0 (R74). -/
def decodePlain (i : Instr) (w : Word) : Except DecodeError Instr :=
  if w.extractLsb' 0 12 = 0 then .ok i else .error .reservedBits

/-- The decoder. It reads the word alone: no state changes what a word means (R78). -/
def decode (w : Word) : Except DecodeError Instr :=
  if opField w = 0x0 then decodePlain .nop w
  else if opField w = 0x1 then
    if pField w = false ∧ zField w = 0 then .ok (.conv (sField w).toNat (dField w).toNat)
    else .error .reservedBits
  else if opField w = 0x2 then
    if zField w = 0 then .ok (.convip (sField w).toNat (dField w).toNat (pField w))
    else .error .reservedBits
  else if opField w = 0x4 then decodePlain .n2p32 w
  else if opField w = 0x5 then decodePlain .p2n32 w
  else if opField w = 0x6 then decodePlain .n2p64 w
  else if opField w = 0x7 then decodePlain .p2n64 w
  else if opField w = 0xF then decodePlain .srst w
  else .error (.reservedOpcode (opField w))

/-- A width as a 4-bit field whose lowest bit is bit pos of the word (R70, R72). -/
def widthField (v pos : Nat) : Word := (BitVec.ofNat 4 v).setWidth 16 <<< pos

/-- The command word of a command (R70, R75, R79). -/
def encode : Instr → Word
  | .nop => 0x0000
  | .conv a b => 0x1000 ||| widthField a 8 ||| widthField b 4
  | .convip a b p => 0x2000 ||| widthField a 8 ||| widthField b 4 ||| (if p then 0x0008 else 0x0000)
  | .n2p32 => 0x4000
  | .p2n32 => 0x5000
  | .n2p64 => 0x6000
  | .p2n64 => 0x7000
  | .srst => 0xF000

/-- One row of the opcode map: a word selects it iff the word and the mask give the match (R75). -/
structure OpcodeRow where
  mnemonic : String
  matchBits : Word
  mask : Word
deriving DecidableEq, Repr

/-- The row of the opcode map a command belongs to (R75). -/
def Instr.row : Instr → OpcodeRow
  | .nop => ⟨"NOP", 0x0000, 0xFFFF⟩
  | .conv _ _ => ⟨"CONV", 0x1000, 0xF00F⟩
  | .convip _ _ _ => ⟨"CONVIP", 0x2000, 0xF007⟩
  | .n2p32 => ⟨"N2P32", 0x4000, 0xFFFF⟩
  | .p2n32 => ⟨"P2N32", 0x5000, 0xFFFF⟩
  | .n2p64 => ⟨"N2P64", 0x6000, 0xFFFF⟩
  | .p2n64 => ⟨"P2N64", 0x7000, 0xFFFF⟩
  | .srst => ⟨"SRST", 0xF000, 0xFFFF⟩

/-- The opcode map of R75, in its order. -/
def opcodeMap : List OpcodeRow :=
  [Instr.row .nop, Instr.row (.conv 0 0), Instr.row (.convip 0 0 false), Instr.row .n2p32,
   Instr.row .p2n32, Instr.row .n2p64, Instr.row .p2n64, Instr.row .srst]

/-- The word selects the row (R75). -/
def OpcodeRow.selects (r : OpcodeRow) (w : Word) : Bool := w &&& r.mask == r.matchBits

/-- The low nbits bits of the number w as a command word, or none where they exceed 16 bits: a command
is one 16-bit word (R70), taken whole, so it has no byte order (R57). -/
def tableWord (nbits w : Nat) : Option Word :=
  if w % 2 ^ nbits < 2 ^ 16 then some (BitVec.ofNat 16 (w % 2 ^ nbits)) else none

/-- The command the decoder reads from the opcode-table bits w. -/
def decodeTableWord (nbits w : Nat) : Option Instr :=
  match tableWord nbits w with
  | none => none
  | some v => (decode v).toOption

end Sys2Proof
end

