-- ==== Sys2Proof/Machine/State.lean ====
section
/-! DEFINITION. The state of one RADIXCONV instance (R20), the host's pending steps, the outcomes that stop the model, and the state after hardware reset (R35). -/

namespace Sys2Proof.Machine

/-- BUF (R29): the bytes whose value has been fixed by a write, addresses strictly rising. An unlisted
address has NO listed value: it holds the unspecified byte of the last hardware reset
(`Config.powerOnByte`, R35), so no entry can equal what an unlisted address reads as. -/
abbrev Memory := List Host.Cell

/-- The engine's hidden registers (R31 to R33). All are 0 or empty between commands; the host reads
none of them. -/
structure Hidden where
  /-- WORK, the sliding window (R31). -/
  work : BitVec 16
  /-- WORKBITS, how many stream bits WORK holds (R31). -/
  workbits : BitVec 4
  /-- SRCIDX, source symbols consumed (R32). -/
  srcidx : BitVec 20
  /-- DSTIDX, output symbols produced (R32). -/
  dstidx : BitVec 20
  /-- PEND, the held output symbols of the recursive in-place strategy, top first (R33). -/
  pend : List Byte
deriving DecidableEq, Repr

/-- The hidden registers as reset and acceptance leave them (R35, R150). -/
def Hidden.cleared : Hidden := ⟨0, 0, 0, 0, []⟩

/-- The two agents (R6). -/
inductive Agent where
  | host
  | engine
deriving DecidableEq, Repr

/-- The six registers of the REG space (R21); registers 6 and above do not exist. -/
inductive Reg where
  | cmd
  | status
  | srcaddr
  | srclen
  | dstaddr
  | dstlen
deriving DecidableEq, Repr

/-- What a host register write writes: a 16-bit word, or the value the host's last read returned (the
`t` of the macros of R80). -/
inductive Value where
  | lit (v : Word)
  | answer
deriving DecidableEq, Repr

/-- One entry of the interleaving of host, engine and platform (R60): the four host steps (R50 to R53),
the polling loop WAIT (R79), the engine's Complete (R151) and the platform's hardware reset (R190). -/
inductive Event where
  /-- HostReadReg(i) (R50). -/
  | readReg (r : Reg)
  /-- HostWriteReg(i, v) (R51); on CMD it submits a command (R150). -/
  | writeReg (r : Reg) (v : Value)
  /-- HostReadBuf(addr) (R52). -/
  | readBuf (addr : Nat)
  /-- HostWriteBuf(addr, v) (R53). -/
  | writeBuf (addr : Nat) (v : Byte)
  /-- WAIT (R79): STATUS is read until BUSY = 0; `polls` reads see BUSY = 1 before the engine steps,
  and that number is not bounded by any rule (R200, U12). -/
  | wait (polls : Nat)
  /-- the mark `-- engine: Complete` of R79: the engine steps here if it is enabled (R151). -/
  | complete
  /-- a hardware reset by the platform (R190). -/
  | hardwareReset
deriving DecidableEq, Repr

/-- The six fault causes of the block (R167). They are recorded in STATUS; the machine goes on. -/
inductive ErrCode where
  | illegal
  | width
  | bounds
  | overlap
  | symbol
  | busy
deriving DecidableEq, Repr

/-- The four phases (R36). -/
inductive Phase where
  | idle
  | busy
  | done
  | err
deriving DecidableEq, Repr

/-- The state of one instance (R20), with the model's own fields last. -/
structure State where
  /-- BUF_SIZE - 1, the highest address of BUF: the one parameter (R7), 0 to 65534. No step changes it. -/
  lastAddr : Fin 65535
  /-- CMDL, the latch of the last accepted command word (R22). -/
  cmdl : Word
  /-- STATUS (R27). -/
  status : Word
  /-- SRCADDR (R23). -/
  srcaddr : Word
  /-- SRCLEN (R24). -/
  srclen : Word
  /-- DSTADDR (R25). -/
  dstaddr : Word
  /-- DSTLEN (R28). -/
  dstlen : Word
  /-- BUF (R29). -/
  buf : Memory
  /-- WORK, WORKBITS, SRCIDX, DSTIDX, PEND (R31 to R33). -/
  hidden : Hidden
  /-- MODEL: the agent whose step is being taken; `step` sets it. -/
  agent : Agent
  /-- MODEL: the pending entries of the interleaving, next first (R60, R79). -/
  script : List Event
  /-- MODEL: the value the host's last read returned (R50, R52). -/
  answer : Word
  /-- MODEL: the number of hardware resets; it selects the unspecified bytes of `Config.powerOnByte`. -/
  resetCount : Nat
  /-- MODEL: the index of the next unused `Config.freeByte`. -/
  freeCount : Nat
deriving DecidableEq, Repr

/-- BUF_SIZE, 1 to 65535 (R7). -/
def State.bufSize (s : State) : Nat := s.lastAddr.val + 1

/-- Why the machine stops. The block's own faults are no stops: they are recorded in STATUS (R160). -/
inductive Fault where
  /-- Raised by a HostReadBuf or HostWriteBuf entry whose address is BUF_SIZE or more: the host has no
  such operation (R52, R53). Safe: nothing is said of a run that holds such an entry. -/
  | absentBufAddress
  /-- Raised by the engine's Complete when CMDL holds no data command (NOP, SRST or an illegal word):
  R151 gives Complete no effect there, and no run reaches it, since CMDL latches data commands only
  (R22). Safe. -/
  | noCompleteStep
deriving DecidableEq, Repr

/-- Why an instruction has no meaning. -/
inductive Refusal where
  /-- Raised by `exec` for an instruction that has no meaning yet; no arm does. Safe. -/
  | notModelled (mnemonic : String)
deriving DecidableEq, Repr

/-- The state right after hardware reset (R35, R190): every register 0, phase IDLE, the hidden
registers cleared, every byte of BUF unspecified, no step pending. -/
def State.reset : State where
  lastAddr := Config.resetLastAddr
  cmdl := 0x0000
  status := 0x0000
  srcaddr := 0x0000
  srclen := 0x0000
  dstaddr := 0x0000
  dstlen := 0x0000
  buf := []
  hidden := Hidden.cleared
  agent := .host
  script := []
  answer := 0x0000
  resetCount := 0
  freeCount := 0

end Sys2Proof.Machine
end

