-- ==== Sys2Proof/Machine/Flags.lean ====
section
/-! DEFINITION. STATUS, the block's only flags (R27): its fields, its phases (R36) and the three ways a step updates it. -/

namespace Sys2Proof.Machine

/-- STATUS.BUSY, bit 0 (R27). -/
def statusBusy (st : Word) : Bool := st.getLsbD 0

/-- STATUS.DONE, bit 1 (R27). -/
def statusDone (st : Word) : Bool := st.getLsbD 1

/-- STATUS.ERR, bit 2 (R27). -/
def statusErr (st : Word) : Bool := st.getLsbD 2

/-- STATUS.ERRCODE, bits 7:4 (R27). -/
def statusErrCode (st : Word) : BitVec 4 := st.extractLsb' 4 4

/-- STATUS as the host reads it: bit 3 and bits 15:8 read 0 (R27, U10). -/
def statusRead (st : Word) : Word := st &&& 0x00F7

/-- The code of a fault in ERRCODE (R167). -/
def ErrCode.code : ErrCode → BitVec 4
  | .illegal => 1
  | .width => 2
  | .bounds => 3
  | .overlap => 4
  | .symbol => 5
  | .busy => 6

/-- STATUS after a command is accepted: BUSY set, DONE cleared (R150). -/
def statusAccepted (st : Word) : Word := (st ||| 0x0001) &&& 0xFFFD

/-- STATUS after a fault-free Complete: BUSY cleared, DONE set (R94, R112, R135). -/
def statusCompleted (st : Word) : Word := (st ||| 0x0002) &&& 0xFFFE

/-- STATUS after `raise Fault(c)`: the code is recorded if ERR was 0, then ERR is set and BUSY and DONE
are cleared (R170). -/
def statusFaulted (c : ErrCode) (st : Word) : Word :=
  let coded := if statusErr st then st else (st &&& 0xFF0F) ||| (c.code.setWidth 16 <<< 4)
  (coded ||| 0x0004) &&& 0xFFFC

/-- STATUS.BUSY of a state. -/
def State.busy (s : State) : Bool := statusBusy s.status

/-- STATUS.DONE of a state. -/
def State.done (s : State) : Bool := statusDone s.status

/-- STATUS.ERR of a state. -/
def State.err (s : State) : Bool := statusErr s.status

/-- The phase, read off STATUS (R36). In reachable states at most one of the three bits is set (R27);
elsewhere ERR is looked at first and BUSY second, as R150 does. -/
def State.phase (s : State) : Phase :=
  if s.err then .err else if s.busy then .busy else if s.done then .done else .idle

end Sys2Proof.Machine
end

