-- ==== Sys2Proof/Machine/Operands.lean ====
section
/-! DEFINITION. The operands of a command: widths (R72), regions of BUF (R63), the output count (R91), and the checks that come before any BUF access (R94, R112, R135, R168). -/

namespace Sys2Proof.Machine

/-- A region of BUF: the addresses base to base + len - 1, exact integers (R63, R65). -/
structure Region where
  base : Nat
  len : Nat
deriving DecidableEq, Repr

/-- InBounds(base, length) for a BUF of `size` bytes (R63). -/
def Region.inBounds (size : Nat) (r : Region) : Bool :=
  decide (r.len = 0 ∨ r.base + r.len ≤ size)

/-- Overlap((b1, l1), (b2, l2)) (R63). -/
def Region.overlaps (r q : Region) : Bool :=
  decide (0 < r.len ∧ 0 < q.len ∧ r.base < q.base + q.len ∧ q.base < r.base + r.len)

/-- The addresses of a region, lowest first. -/
def Region.addresses (r : Region) : List Nat := (List.range r.len).map (r.base + ·)

/-- Both widths are in 1..8 (R72, R162). -/
def widthsLegal (a b : Nat) : Bool := decide (1 ≤ a ∧ a ≤ 8 ∧ 1 ≤ b ∧ b ≤ 8)

/-- OutLen(n, a, b, P): floor(n*a/b), plus one when P = 1 and n*a mod b is not 0 (R91). -/
def outLen (n a b : Nat) (emitPartial : Bool) : Nat :=
  n * a / b + (if emitPartial = true ∧ n * a % b ≠ 0 then 1 else 0)

/-- The source region (SRCADDR, SRCLEN) of every data command (R63). -/
def sourceRegion (s : State) : Region := ⟨s.srcaddr.toNat, s.srclen.toNat⟩

/-- The destination of CONV (DSTADDR, m), with P fixed at 1 (R63, R94). -/
def convRegion (a b : Nat) (s : State) : Region := ⟨s.dstaddr.toNat, outLen s.srclen.toNat a b true⟩

/-- The destination of CONVIP (SRCADDR, m) (R63, R112). -/
def convipRegion (a b : Nat) (p : Bool) (s : State) : Region :=
  ⟨s.srcaddr.toNat, outLen s.srclen.toNat a b p⟩

/-- CONV's checks before any access: widths, bounds, overlap, in that order (R94, R168). -/
def convPlan (a b : Nat) (s : State) : Except ErrCode Region :=
  if !widthsLegal a b then .error .width
  else if !((sourceRegion s).inBounds s.bufSize && (convRegion a b s).inBounds s.bufSize) then .error .bounds
  else if (sourceRegion s).overlaps (convRegion a b s) then .error .overlap
  else .ok (convRegion a b s)

/-- CONVIP's checks before any access: widths, bounds (R112, R168). -/
def convipPlan (a b : Nat) (p : Bool) (s : State) : Except ErrCode Region :=
  if !widthsLegal a b then .error .width
  else if !((sourceRegion s).inBounds s.bufSize && (convipRegion a b p s).inBounds s.bufSize) then .error .bounds
  else .ok (convipRegion a b p s)

/-- The alphabet commands' check before any access: bounds; source and destination are one region
(R135). -/
def alphabetPlan (s : State) : Except ErrCode Region :=
  if !(sourceRegion s).inBounds s.bufSize then .error .bounds else .ok (sourceRegion s)

/-- The checks of a command, and the destination region Dest(cmd) where they pass (R63, R171). NOP and
SRST have none: the empty region. -/
def commandPlan (i : Instr) (s : State) : Except ErrCode Region :=
  match i with
  | .nop => .ok ⟨0, 0⟩
  | .conv a b => convPlan a b s
  | .convip a b p => convipPlan a b p s
  | .n2p32 => alphabetPlan s
  | .p2n32 => alphabetPlan s
  | .n2p64 => alphabetPlan s
  | .p2n64 => alphabetPlan s
  | .srst => .ok ⟨0, 0⟩

/-- AbortRegion: the destination of the command in CMDL where its checks pass, else empty (R171). -/
def abortRegion (s : State) : Region :=
  match decode s.cmdl with
  | .error _ => ⟨0, 0⟩
  | .ok i =>
    match commandPlan i s with
    | .error _ => ⟨0, 0⟩
    | .ok r => r

end Sys2Proof.Machine
end

