-- ==== Sys2Proof/Machine/Ops.lean ====
section
/-! DEFINITION. The operations every step is made of: BUF (R65), registers (R21, R50), unspecified bytes (U6), taking a fault (R170, R171), the return from one (R153, R173, R190), acceptance (R150) and the shared Complete (R94, R112, R135). -/

namespace Sys2Proof.Machine

/-- The listed byte at an address, none where no write has fixed one. -/
def Memory.find : Memory → Nat → Option Byte
  | [], _ => none
  | (k, v) :: rest, a => if k = a then some v else Memory.find rest a

/-- Store a byte, keeping the addresses strictly rising. -/
def Memory.write : Memory → Nat → Byte → Memory
  | [], a, v => [(a, v)]
  | (k, x) :: rest, a, v =>
    if a < k then (a, v) :: (k, x) :: rest
    else if a = k then (a, v) :: rest
    else (k, x) :: Memory.write rest a v

/-- Store bytes at consecutive addresses from `base`, lowest first (R55). -/
def Memory.writeBytes : Memory → Nat → List Byte → Memory
  | m, _, [] => m
  | m, base, v :: rest => Memory.writeBytes (Memory.write m base v) (base + 1) rest

/-- The canonical form: addresses strictly rising. An unlisted address has no listed value, so no
entry can equal it. -/
abbrev Memory.wf (m : Memory) : Prop := m.Pairwise (fun c d => c.1 < d.1)

/-- What a byte of BUF reads as: its listed value, or the unspecified byte it has held since the last
hardware reset (R52, R190, U6). -/
def Memory.byteAt (resets : Nat) (m : Memory) (addr : Nat) : Byte :=
  match Memory.find m addr with
  | some v => v
  | none => Config.powerOnByte resets addr

/-- MemRead(addr, 1) (R65). -/
def readByte (s : State) (addr : Nat) : Byte := Memory.byteAt s.resetCount s.buf addr

/-- MemWrite(addr, 1, v) (R65). -/
def writeByte (addr : Nat) (v : Byte) (s : State) : State := { s with buf := Memory.write s.buf addr v }

/-- The source symbols s_0 .. s_(n-1): the n bytes from SRCADDR up, read before any write (R94, R112). -/
def readSource (s : State) : List Byte :=
  (List.range s.srclen.toNat).map (fun i => readByte s (s.srcaddr.toNat + i))

/-- The number of a register (R21). -/
def Reg.number : Reg → Nat
  | .cmd => 0
  | .status => 1
  | .srcaddr => 2
  | .srclen => 3
  | .dstaddr => 4
  | .dstlen => 5

/-- What HostReadReg returns (R50): CMD gives CMDL (R22), STATUS its fields with the reserved bits 0. -/
def readReg (r : Reg) (s : State) : Word :=
  match r with
  | .cmd => s.cmdl
  | .status => statusRead s.status
  | .srcaddr => s.srcaddr
  | .srclen => s.srclen
  | .dstaddr => s.dstaddr
  | .dstlen => s.dstlen

/-- Each listed address gets an unspecified byte of its own (R12, U6). -/
def unspecify : List Nat → State → State
  | [], s => s
  | a :: rest, s =>
    unspecify rest { s with buf := Memory.write s.buf a (Config.freeByte s.freeCount), freeCount := s.freeCount + 1 }

/-- `raise Fault(c)` (R170): the bytes at `lost` become unspecified (R171) and STATUS records the fault;
nothing else changes. -/
def raiseFault (c : ErrCode) (lost : List Nat) (s : State) : State :=
  { unspecify lost s with status := statusFaulted c s.status }

/-- ERR_BUSY, raised by a host step that breaks the exclusion rule (R166): AbortRegion becomes
unspecified, and so do the bytes at `touched`, the address a violating HostWriteBuf names (R171). -/
def raiseBusy (touched : List Nat) (s : State) : State :=
  raiseFault .busy ((abortRegion s).addresses ++ touched) s

/-- SRST, the return from a fault (R153, R173): a running command is aborted and its AbortRegion becomes
unspecified; every register and the hidden state are cleared; BUF is kept otherwise. -/
def softReset (s : State) : State :=
  { (if s.busy then unspecify (abortRegion s).addresses s else s) with
    cmdl := 0x0000, status := 0x0000, srcaddr := 0x0000, srclen := 0x0000,
    dstaddr := 0x0000, dstlen := 0x0000, hidden := Hidden.cleared }

/-- Hardware reset (R35, R190): as SRST, and every byte of BUF becomes unspecified anew. -/
def hardwareReset (s : State) : State :=
  { s with
    cmdl := 0x0000, status := 0x0000, srcaddr := 0x0000, srclen := 0x0000,
    dstaddr := 0x0000, dstlen := 0x0000, hidden := Hidden.cleared,
    buf := [], resetCount := s.resetCount + 1 }

/-- A CMD write of a legal word other than SRST: ignored in phase ERR, ERR_BUSY in phase BUSY, else
`run` (R150, R172). -/
def submit (run : State → State) (s : State) : State :=
  if s.err then s else if s.busy then raiseBusy [] s else run s

/-- Acceptance of a data command: CMDL latches the word, BUSY is set, the hidden registers are cleared;
no BUF byte and no other register is touched (R150). -/
def latch (w : Word) (s : State) : State :=
  { s with cmdl := w, status := statusAccepted s.status, hidden := Hidden.cleared }

/-- A CMD write of an illegal word (R77, R150, R161). -/
def submitIllegal (s : State) : State := submit (raiseFault .illegal []) s

/-- The end of a fault-free Complete: the output goes to the destination, DSTLEN gets the count, BUSY
is cleared and DONE set (R94, R112, R135). -/
def finish (dst : Region) (out : List Byte) (s : State) : State :=
  { s with
    buf := Memory.writeBytes s.buf dst.base out,
    dstlen := BitVec.ofNat 16 dst.len,
    status := statusCompleted s.status }

/-- The shared shape of the Complete step (R94, R112, R135): the checks of `plan` first, then all source
symbols are read and each must be below `limit`, then the output is written. A failed check raises
its fault with BUF unchanged; a symbol out of range raises ERR_SYMBOL and the destination becomes
unspecified (R165, R171). -/
def completeWith (plan : Except ErrCode Region) (limit : Nat) (output : List Byte → List Byte) (s : State) : State :=
  match plan with
  | .error c => raiseFault c [] s
  | .ok dst =>
    if (readSource s).any (fun x => decide (limit ≤ x.toNat)) then raiseFault .symbol dst.addresses s
    else finish dst (output (readSource s)) s

/-- A data command: on the host's turn its word is submitted (R150), on the engine's turn its Complete
step is taken (R151). -/
def dataCommand (w : Word) (completeStep : State → State) (s : State) : Host.Outcome State Fault Refusal :=
  match s.agent with
  | .host => .next (submit (latch w) s)
  | .engine => .next (completeStep s)

end Sys2Proof.Machine
end

