-- ==== Sys2Proof/Machine/Tables.lean ====
section
/-! DEFINITION. The four constant alphabet tables (R30, R131 to R134). They are no state: no step reads or writes them as registers. -/

namespace Sys2Proof.Machine

/-- T_N2P32: a..z, then 2..7 (R131). -/
def tableN2P32 : List Byte :=
  (List.range 32).map (fun v =>
    if v ≤ 25 then BitVec.ofNat 8 (0x61 + v) else BitVec.ofNat 8 (0x32 + (v - 26)))

/-- T_P2N32: the inverse on the 32 characters, 0 for every other byte (R132). -/
def tableP2N32 : List Byte :=
  (List.range 256).map (fun c =>
    if 0x61 ≤ c ∧ c ≤ 0x7A then BitVec.ofNat 8 (c - 0x61)
    else if 0x32 ≤ c ∧ c ≤ 0x37 then BitVec.ofNat 8 (c - 0x32 + 26)
    else 0)

/-- T_N2P64: comma, hyphen, 0..9, A..Z, a..z (R133). -/
def tableN2P64 : List Byte :=
  (List.range 64).map (fun v =>
    if v = 0 then 0x2C
    else if v = 1 then 0x2D
    else if v ≤ 11 then BitVec.ofNat 8 (0x30 + (v - 2))
    else if v ≤ 37 then BitVec.ofNat 8 (0x41 + (v - 12))
    else BitVec.ofNat 8 (0x61 + (v - 38)))

/-- T_P2N64: the inverse on the 64 characters, 0 for every other byte (R134). -/
def tableP2N64 : List Byte :=
  (List.range 256).map (fun c =>
    if c = 0x2C then 0
    else if c = 0x2D then 1
    else if 0x30 ≤ c ∧ c ≤ 0x39 then BitVec.ofNat 8 (c - 0x30 + 2)
    else if 0x41 ≤ c ∧ c ≤ 0x5A then BitVec.ofNat 8 (c - 0x41 + 12)
    else if 0x61 ≤ c ∧ c ≤ 0x7A then BitVec.ofNat 8 (c - 0x61 + 38)
    else 0)

/-- T[c]. Every use is guarded by the index-range check of R135, so the 0 outside the table is never
looked up. -/
def tableEntry (t : List Byte) (c : Byte) : Byte := t.getD c.toNat 0

end Sys2Proof.Machine
end

