-- ==== Sys2Proof/Machine/Alphabet.lean ====
section
/-! DEFINITION. The alphabet translation commands N2P32, P2N32, N2P64, P2N64 (R135 to R139). -/

namespace Sys2Proof.Machine

/-- The Complete step of an alphabet command with table t, whose index range is the table's length
(R135). -/
def translateComplete (t : List Byte) (s : State) : State :=
  completeWith (alphabetPlan s) t.length (List.map (tableEntry t)) s

/-- N2P32 (R136). -/
def execN2p32 (s : State) : Host.Outcome State Fault Refusal :=
  dataCommand (encode .n2p32) (translateComplete tableN2P32) s

/-- P2N32 (R137). -/
def execP2n32 (s : State) : Host.Outcome State Fault Refusal :=
  dataCommand (encode .p2n32) (translateComplete tableP2N32) s

/-- N2P64 (R138). -/
def execN2p64 (s : State) : Host.Outcome State Fault Refusal :=
  dataCommand (encode .n2p64) (translateComplete tableN2P64) s

/-- P2N64 (R139). -/
def execP2n64 (s : State) : Host.Outcome State Fault Refusal :=
  dataCommand (encode .p2n64) (translateComplete tableP2N64) s

end Sys2Proof.Machine
end

