-- ==== Sys2Proof/Machine/Control.lean ====
section
/-! DEFINITION. The system commands NOP (R152) and SRST (R153). -/

namespace Sys2Proof.Machine

/-- NOP (R152): no change in IDLE and DONE, ignored in ERR, ERR_BUSY in BUSY. The engine never holds it
(R22), so it has no Complete step. -/
def execNop (s : State) : Host.Outcome State Fault Refusal :=
  match s.agent with
  | .host => .next (submit id s)
  | .engine => .fault .noCompleteStep

/-- SRST (R153), honoured in every phase. The engine never holds it (R22), so it has no Complete step. -/
def execSrst (s : State) : Host.Outcome State Fault Refusal :=
  match s.agent with
  | .host => .next (softReset s)
  | .engine => .fault .noCompleteStep

end Sys2Proof.Machine
end

