-- ==== Sys2Proof/Machine/Convert.lean ====
section
/-! DEFINITION. The radix conversion Conv(s, a, b, P) (R90 to R93) and the commands CONV (R94) and CONVIP (R112). -/

namespace Sys2Proof.Machine

/-- V = sum of s_i * 2^(a*i): the source symbols end to end, least significant bit first (R56, R92). -/
def streamValue (a : Nat) : List Nat → Nat
  | [] => 0
  | x :: rest => x + 2 ^ a * streamValue a rest

/-- d_k = floor(V / 2^(b*k)) mod 2^b (R92). -/
def outSymbol (v b k : Nat) : Nat := v / 2 ^ (b * k) % 2 ^ b

/-- Conv(s, a, b, P), the list d_0 .. d_(m-1) (R92). -/
def convSymbols (a b : Nat) (p : Bool) (src : List Nat) : List Nat :=
  (List.range (outLen src.length a b p)).map (outSymbol (streamValue a src) b)

/-- Conv on bytes, one symbol a byte (R55). -/
def convBytes (a b : Nat) (p : Bool) (src : List Byte) : List Byte :=
  (convSymbols a b p (src.map BitVec.toNat)).map (BitVec.ofNat 8)

/-- The Complete step of CONV; P is fixed at 1 (R94). -/
def convComplete (a b : Nat) (s : State) : State :=
  completeWith (convPlan a b s) (2 ^ a) (convBytes a b true) s

/-- The Complete step of CONVIP (R112). -/
def convipComplete (a b : Nat) (p : Bool) (s : State) : State :=
  completeWith (convipPlan a b p s) (2 ^ a) (convBytes a b p) s

/-- CONV S, D (R94). -/
def execConv (a b : Nat) (s : State) : Host.Outcome State Fault Refusal :=
  dataCommand (encode (.conv a b)) (convComplete a b) s

/-- CONVIP S, D, P (R112). -/
def execConvip (a b : Nat) (p : Bool) (s : State) : Host.Outcome State Fault Refusal :=
  dataCommand (encode (.convip a b p)) (convipComplete a b p) s

end Sys2Proof.Machine
end

