-- ==== Sys2Proof/Machine/Dispatch.lean ====
section
/-! DEFINITION. The meaning of each command, one arm a row of spec/opcode_table.json. -/

namespace Sys2Proof.Machine

/-- The meaning of a command: on the host's turn what its CMD write does (R150), on the engine's turn
what its Complete step does (R151). -/
def exec (i : Instr) (s : State) : Host.Outcome State Fault Refusal :=
  match i with
  | .nop => Sys2Proof.Machine.execNop s
  | .conv a b => Sys2Proof.Machine.execConv a b s
  | .convip a b p => Sys2Proof.Machine.execConvip a b p s
  | .n2p32 => Sys2Proof.Machine.execN2p32 s
  | .p2n32 => Sys2Proof.Machine.execP2n32 s
  | .n2p64 => Sys2Proof.Machine.execN2p64 s
  | .p2n64 => Sys2Proof.Machine.execP2n64 s
  | .srst => Sys2Proof.Machine.execSrst s

end Sys2Proof.Machine
end

