-- ==== Sys2Proof/Machine/Agents.lean ====
section
/-! DEFINITION. What the agents do: the four host steps (R50 to R53), the CMD write (R150), the engine's step (R151, R155), WAIT (R79) and the platform's hardware reset (R190). -/

namespace Sys2Proof.Machine

/-- The word a host register write writes. -/
def valueOf (v : Value) (s : State) : Word :=
  match v with
  | .lit w => w
  | .answer => s.answer

/-- HostReadReg(r), allowed in every phase (R50). -/
def hostReadReg (r : Reg) (s : State) : State := { s with answer := readReg r s }

/-- A write of SRCADDR, SRCLEN or DSTADDR: ERR_BUSY while BUSY and the write is not performed, else
`store` (R51, R166). -/
def hostWriteOperand (store : State → State) (s : State) : State :=
  if s.busy then raiseBusy [] s else store s

/-- HostWriteReg(CMD, w): a legal word is the command it decodes to, an illegal one is refused (R150). -/
def submitWord (w : Word) (s : State) : Host.Outcome State Fault Refusal :=
  match decode w with
  | .ok i => exec i s
  | .error _ => .next (submitIllegal s)

/-- HostWriteReg(r, w) (R51). -/
def hostWriteReg (r : Reg) (w : Word) (s : State) : Host.Outcome State Fault Refusal :=
  match r with
  | .cmd => submitWord w s
  | .status => .next s
  | .srcaddr => .next (hostWriteOperand (fun t => { t with srcaddr := w }) s)
  | .srclen => .next (hostWriteOperand (fun t => { t with srclen := w }) s)
  | .dstaddr => .next (hostWriteOperand (fun t => { t with dstaddr := w }) s)
  | .dstlen => .next s

/-- HostReadBuf(addr): while BUSY it raises ERR_BUSY and returns an unspecified byte (R52, R166). -/
def hostReadBuf (addr : Nat) (s : State) : Host.Outcome State Fault Refusal :=
  if s.bufSize ≤ addr then .fault .absentBufAddress
  else if s.busy then
    let t := raiseBusy [] s
    .next { t with answer := (Config.freeByte t.freeCount).setWidth 16, freeCount := t.freeCount + 1 }
  else .next { s with answer := (readByte s addr).setWidth 16 }

/-- HostWriteBuf(addr, v): while BUSY it raises ERR_BUSY and the byte becomes unspecified (R53, R166). -/
def hostWriteBuf (addr : Nat) (v : Byte) (s : State) : Host.Outcome State Fault Refusal :=
  if s.bufSize ≤ addr then .fault .absentBufAddress
  else if s.busy then .next (raiseBusy [addr] s)
  else .next (writeByte addr v s)

/-- The engine's only step, Complete of the command in CMDL, enabled exactly when BUSY = 1 (R151); an
idle engine does nothing (R155). -/
def engineStep (s : State) : Host.Outcome State Fault Refusal :=
  if s.busy then
    match decode s.cmdl with
    | .ok i => exec i { s with agent := .engine }
    | .error _ => .fault .noCompleteStep
  else .next s

/-- WAIT (R79): one STATUS read, and the loop goes on while it shows BUSY = 1. After `polls` such reads
the engine steps, for it steps eventually (R155); how many reads that takes is open (U12). -/
def waitStep (polls : Nat) (s : State) : Host.Outcome State Fault Refusal :=
  if s.busy then
    match polls with
    | 0 => engineStep { s with script := .wait 0 :: s.script }
    | k + 1 => .next { hostReadReg .status s with script := .wait k :: s.script }
  else .next (hostReadReg .status s)

/-- One entry of the interleaving, already taken off the script (R60). -/
def runEvent (e : Event) (s : State) : Host.Outcome State Fault Refusal :=
  match e with
  | .readReg r => .next (hostReadReg r s)
  | .writeReg r v => hostWriteReg r (valueOf v s) s
  | .readBuf addr => hostReadBuf addr s
  | .writeBuf addr v => hostWriteBuf addr v s
  | .wait polls => waitStep polls s
  | .complete => engineStep s
  | .hardwareReset => .next (hardwareReset s)

/-- One step: the next entry of the script; with none pending, the engine's step if a command runs
(R155), else nothing. -/
def runMachine (s : State) : Host.Outcome State Fault Refusal :=
  match s.script with
  | [] => engineStep s
  | e :: rest => runEvent e { s with script := rest, agent := .host }

/-- The state in which the host's next step writes to CMD the command word the opcode-table bits give. -/
def offerCommand (nbits w : Nat) (s : State) : State :=
  match tableWord nbits w with
  | none => s
  | some v => { s with script := .writeReg .cmd (.lit v) :: s.script }

end Sys2Proof.Machine
end

