-- ==== Sys2Proof/Machine/Step.lean ====
section
/-! DEFINITION. One step of the machine, and the state whose next step runs a given command word. -/

namespace Sys2Proof.Machine

/-- One step of the interleaving of host, engine and platform (R60). -/
def step (s : State) : Host.Outcome State Fault Refusal := runMachine s

/-- `s` with a host write of CMD as its next step: the block fetches nothing, a command is handed over
by that write (R26). -/
def State.withFetchWord (s : State) (nbits w : Nat) : State := offerCommand nbits w s

end Sys2Proof.Machine
end

