-- ==== Sys2Proof/Machine/Stream.lean ====
section
/-! DEFINITION. The reference streaming algorithm over the hidden registers at their widths (R31, R32, R95). The Complete steps use Conv (R92), as R95 allows; that the two agree is a statement for the provers. -/

namespace Sys2Proof.Machine

/-- Read one source symbol: its bits go above the bits still held (R95). -/
def absorb (a : Nat) (sym : Byte) (h : Hidden) : Hidden :=
  { h with
    work := h.work ||| (sym.setWidth 16 <<< h.workbits.toNat)
    workbits := h.workbits + BitVec.ofNat 4 a
    srcidx := h.srcidx + 1 }

/-- WORK & (2^b - 1): the low-order group (R95). -/
def lowGroup (b : Nat) (h : Hidden) : Byte := (h.work &&& BitVec.ofNat 16 (2 ^ b - 1)).setWidth 8

/-- The low-order group leaves the window (R95). -/
def dropGroup (b : Nat) (h : Hidden) : Hidden :=
  { h with
    work := h.work >>> b
    workbits := h.workbits - BitVec.ofNat 4 b
    dstidx := h.dstidx + 1 }

/-- The inner loop: emit while WORKBITS >= b (R95). At most floor(15/b) rounds run (R96), so 15 of fuel
are enough. -/
def drain (b : Nat) : Nat → Hidden → List Byte × Hidden
  | 0, h => ([], h)
  | fuel + 1, h =>
    if b ≤ h.workbits.toNat then
      (lowGroup b h :: (drain b fuel (dropGroup b h)).1, (drain b fuel (dropGroup b h)).2)
    else ([], h)

/-- The outer loop over the source symbols (R95). -/
def streamGroups (a b : Nat) : List Byte → Hidden → List Byte × Hidden
  | [], h => ([], h)
  | x :: rest, h =>
    ((drain b 15 (absorb a x h)).1 ++ (streamGroups a b rest (drain b 15 (absorb a x h)).2).1,
     (streamGroups a b rest (drain b 15 (absorb a x h)).2).2)

/-- The end of the algorithm: where P = 1 and bits are left, the partial trailing symbol is emitted and
DSTIDX counts it; WORK and WORKBITS stay (R32, R93, R95). -/
def emitPartial (b : Nat) (p : Bool) (h : Hidden) : List Byte × Hidden :=
  if p = true ∧ 0 < h.workbits.toNat then ([lowGroup b h], { h with dstidx := h.dstidx + 1 }) else ([], h)

/-- The whole algorithm from the hidden registers `h`: the symbols it emits from `src`, the partial
trailing symbol last, and the hidden registers it ends with (R95). SRCIDX counts every symbol read and
DSTIDX every symbol emitted (R32; log entry 18). -/
def streamRun (a b : Nat) (p : Bool) (src : List Byte) (h : Hidden) : List Byte × Hidden :=
  ((streamGroups a b src h).1 ++ (emitPartial b p (streamGroups a b src h).2).1,
   (emitPartial b p (streamGroups a b src h).2).2)

/-- The symbols the algorithm emits from `src` after acceptance has cleared the hidden registers (R95,
R150). -/
def streamBytes (a b : Nat) (p : Bool) (src : List Byte) : List Byte :=
  (streamRun a b p src Hidden.cleared).1

end Sys2Proof.Machine
end

