-- ==== Sys2Proof/Machine/InPlace.lean ====
section
/-! DEFINITION. The finer ways to carry out CONVIP that the spec allows: any schedule under the hazard rule (R116), the recursive strategy with the stack PEND (R117), and the ordered single pass (R118). No host step can tell them from the atomic Complete of R112 (R119); `exec` takes that one. -/

namespace Sys2Proof.Machine

/-- One micro-step of a schedule: read the next source symbol, or write output symbol k (R116). -/
inductive MicroStep where
  | read
  | write (k : Nat)
deriving DecidableEq, Repr

/-- The buffer and the symbols read so far. -/
structure MicroState where
  buf : Memory
  got : List Byte
deriving DecidableEq, Repr

/-- One micro-step on a source at `base`. Reads go in ascending order from the buffer as it then is;
symbol k is computed from what has been read (R116). -/
def microStep (a b base resets : Nat) (x : MicroStep) (s : MicroState) : MicroState :=
  match x with
  | .read => { s with got := s.got ++ [Memory.byteAt resets s.buf (base + s.got.length)] }
  | .write k =>
    let v : Byte := BitVec.ofNat 8 (outSymbol (streamValue a (s.got.map BitVec.toNat)) b k)
    { s with buf := Memory.write s.buf (base + k) v }

/-- The hazard rule after c of n source symbols have been read (R116): a write to position p < n needs
p < c, and the symbol's bits must have been read. -/
def microAllowed (a b n m c : Nat) (x : MicroStep) : Bool :=
  match x with
  | .read => decide (c < n)
  | .write k => decide (k < m ∧ (k < n → k < c) ∧ (c = n ∨ (k + 1) * b ≤ c * a))

/-- Every micro-step of the schedule is allowed when its turn comes; c counts the reads before it. -/
def scheduleAllowed (a b n m : Nat) : Nat → List MicroStep → Bool
  | _, [] => true
  | c, .read :: rest => microAllowed a b n m c .read && scheduleAllowed a b n m (c + 1) rest
  | c, .write k :: rest => microAllowed a b n m c (.write k) && scheduleAllowed a b n m c rest

/-- The buffer after a schedule, from the buffer at acceptance (R116). -/
def runSchedule (a b base resets : Nat) (sched : List MicroStep) (m : Memory) : Memory :=
  (sched.foldl (fun s x => microStep a b base resets x s) ⟨m, []⟩).buf

/-- The gathering loop of a level: read left to right until WORKBITS >= b or the source ends (R117). Each
round adds at least one bit and b is at most 8, so 8 of fuel are enough. -/
def gather (a b n : Nat) (source : Nat → Byte) : Nat → Hidden → Hidden
  | 0, h => h
  | fuel + 1, h =>
    if h.workbits.toNat < b ∧ h.srcidx.toNat < n then gather a b n source fuel (absorb a (source h.srcidx.toNat) h)
    else h

/-- Hold symbol k in PEND and go one level down; WORKBITS becomes max(WORKBITS - b, 0) (R117). -/
def holdSymbol (b : Nat) (h : Hidden) : Hidden :=
  { dropGroup b h with
    workbits := if h.workbits.toNat < b then 0 else h.workbits - BitVec.ofNat 4 b
    pend := lowGroup b h :: h.pend }

/-- The descent through the given number of levels (R117). -/
def descend (a b n : Nat) (source : Nat → Byte) : Nat → Hidden → Hidden
  | 0, h => h
  | levels + 1, h => descend a b n source levels (holdSymbol b (gather a b n source 8 h))

/-- The writes on the way back: the top of PEND is the last symbol, and position 0 is written last
(R117). -/
def unwind (base : Nat) : List Byte → Memory → Memory
  | [], m => m
  | v :: below, m => unwind base below (Memory.write m (base + below.length) v)

/-- The buffer after the recursive strategy, from a state just accepted (R117). -/
def recursiveInPlace (a b : Nat) (p : Bool) (s : State) : Memory :=
  unwind s.srcaddr.toNat
    (descend a b s.srclen.toNat (fun i => readByte s (s.srcaddr.toNat + i))
      (outLen s.srclen.toNat a b p) Hidden.cleared).pend
    s.buf

/-- Stream bit q read straight from the buffer, 0 past the end of the stream (R56, R118). -/
def bufferBit (a n base resets : Nat) (m : Memory) (q : Nat) : Nat :=
  if q < n * a then (Memory.byteAt resets m (base + q / a)).toNat / 2 ^ (q % a) % 2 else 0

/-- Output symbol k computed straight from the buffer (R118). -/
def bufferSymbol (a b n base resets : Nat) (m : Memory) (k : Nat) : Byte :=
  BitVec.ofNat 8 (streamValue 1 ((List.range b).map (fun j => bufferBit a n base resets m (k * b + j))))

/-- The order in which the single pass visits the output symbols: ascending when b >= a, else descending
(R118). -/
def passOrder (a b m : Nat) : List Nat := if a ≤ b then List.range m else (List.range m).reverse

/-- The buffer after the ordered single pass without a stack (R118 b). -/
def singlePass (a b : Nat) (p : Bool) (s : State) : Memory :=
  (passOrder a b (outLen s.srclen.toNat a b p)).foldl
    (fun m k => Memory.write m (s.srcaddr.toNat + k)
      (bufferSymbol a b s.srclen.toNat s.srcaddr.toNat s.resetCount m k))
    s.buf

end Sys2Proof.Machine
end

