-- ==== Sys2Proof/Machine/Script.lean ====
section
/-! DEFINITION. The written syntax of host scripts (R79) and the four macros (R80), as the entries of the interleaving they stand for. -/

namespace Sys2Proof.Machine

/-- One line of a host script (R79). -/
inductive ScriptLine where
  /-- WR reg, value -/
  | wr (r : Reg) (v : Value)
  /-- LD addr, b0 b1 ... -/
  | ld (addr : Nat) (bytes : List Byte)
  /-- RD reg -/
  | rd (r : Reg)
  /-- DUMP addr, count -/
  | dump (addr count : Nat)
  /-- WAIT, with the number of reads that see BUSY = 1 -/
  | wait (polls : Nat)
  /-- a mnemonic with its operands -/
  | command (i : Instr)
  /-- the mark `-- engine: Complete` -/
  | engineComplete
deriving DecidableEq, Repr

/-- The host steps of LD: consecutive addresses from `addr` (R79). -/
def loadEvents : Nat → List Byte → List Event
  | _, [] => []
  | addr, b :: rest => .writeBuf addr b :: loadEvents (addr + 1) rest

/-- The steps a line stands for (R79). -/
def ScriptLine.events : ScriptLine → List Event
  | .wr r v => [.writeReg r v]
  | .ld addr bytes => loadEvents addr bytes
  | .rd r => [.readReg r]
  | .dump addr count => (List.range count).map (fun i => .readBuf (addr + i))
  | .wait polls => [.wait polls]
  | .command i => [.writeReg .cmd (.lit (encode i))]
  | .engineComplete => [.complete]

/-- The steps of a script (R79). -/
def scriptEvents (lines : List ScriptLine) : List Event := lines.flatMap ScriptLine.events

/-- The common shape of ENCODE32 and ENCODE64: CONVIP 8, w, 1, then the length hand-over from DSTLEN
to SRCLEN (R198), then the translation (R80). -/
def encodeMacro (w : Nat) (translation : Instr) (addr len : Word) (polls polls' : Nat) : List ScriptLine :=
  [.wr .srcaddr (.lit addr), .wr .srclen (.lit len), .command (.convip 8 w true), .wait polls,
   .rd .dstlen, .wr .srclen .answer, .command translation, .wait polls']

/-- The common shape of DECODE32 and DECODE64: the translation, then CONVIP w, 8, 0 (R80). -/
def decodeMacro (w : Nat) (translation : Instr) (addr len : Word) (polls polls' : Nat) : List ScriptLine :=
  [.wr .srcaddr (.lit addr), .wr .srclen (.lit len), .command translation, .wait polls,
   .command (.convip w 8 false), .wait polls']

/-- ENCODE32 addr, len (R80). -/
def encode32 (addr len : Word) (polls polls' : Nat) : List ScriptLine := encodeMacro 5 .n2p32 addr len polls polls'

/-- ENCODE64 addr, len (R80). -/
def encode64 (addr len : Word) (polls polls' : Nat) : List ScriptLine := encodeMacro 6 .n2p64 addr len polls polls'

/-- DECODE32 addr, len (R80). -/
def decode32 (addr len : Word) (polls polls' : Nat) : List ScriptLine := decodeMacro 5 .p2n32 addr len polls polls'

/-- DECODE64 addr, len (R80). -/
def decode64 (addr len : Word) (polls polls' : Nat) : List ScriptLine := decodeMacro 6 .p2n64 addr len polls polls'

end Sys2Proof.Machine
end

