-- ==== Sys2Proof/Safety.lean ====
section
/-! DEFINITION. The terms claims are stated in: the invariant of every reachable state, what a fault-free completion and a fault change and leave alone, and a clean run. -/

namespace Sys2Proof.Machine

/-- The STATUS words that occur: IDLE, BUSY, DONE, and ERR with the codes 1 to 6 (R27, R167). -/
def statusWords : List Word :=
  [0x0000, 0x0001, 0x0002, 0x0014, 0x0024, 0x0034, 0x0044, 0x0054, 0x0064]

/-- The word decodes to one of the six data commands (R22). -/
def holdsDataCommand (w : Word) : Bool :=
  match decode w with
  | .ok i => i.isData
  | .error _ => false

/-- What holds in every reachable state. -/
structure State.Inv (s : State) : Prop where
  /-- BUF is in its canonical form. -/
  bufSorted : Memory.wf s.buf
  /-- BUF lists only addresses that exist (R29). -/
  bufExists : ∀ c ∈ s.buf, c.1 < s.bufSize
  /-- At most one of BUSY, DONE, ERR is 1, ERRCODE is 0 when ERR is 0, reserved bits are 0 (R27). -/
  statusLegal : s.status ∈ statusWords
  /-- CMDL is 0 or an accepted word (R22). -/
  cmdlLegal : s.cmdl = 0 ∨ holdsDataCommand s.cmdl = true
  /-- A running command is a data command (R150). -/
  busyHolds : s.busy = true → holdsDataCommand s.cmdl = true
  /-- DSTLEN counts symbols that fit BUF (R28). -/
  dstlenFits : s.dstlen.toNat ≤ s.bufSize
  /-- The hidden registers are clear between the atomic steps. Reset and acceptance clear them (R35, R150)
  and Complete writes nothing else (R94, R112, R135); that they stay clear through a Complete is the
  model's choice (log entry 10), for R31 to R33 give them no meaning between commands. -/
  hiddenClear : s.hidden = Hidden.cleared

/-- ERR has not been set: a run in which it ever is went wrong (R172). -/
def State.clean (s : State) : Prop := s.err = false

/-- The address an entry of the script names exists (R52, R53). -/
def Event.addressExists (size : Nat) : Event → Bool
  | .readReg _ => true
  | .writeReg _ _ => true
  | .readBuf addr => decide (addr < size)
  | .writeBuf addr _ => decide (addr < size)
  | .wait _ => true
  | .complete => true
  | .hardwareReset => true

/-- Every address the script names exists. -/
def State.scriptExists (s : State) : Bool := s.script.all (Event.addressExists s.bufSize)

/-- The next step is a reset: a hardware reset, or the exact word 0xF000 written to CMD (R172, R190). -/
def State.resetsNext (s : State) : Prop :=
  s.script.head? = some .hardwareReset ∨
    ∃ v, s.script.head? = some (.writeReg .cmd v) ∧ valueOf v s = 0xF000

/-- The next step writes a data command to CMD (R150). -/
def State.submitsDataNext (s : State) : Prop :=
  ∃ v, s.script.head? = some (.writeReg .cmd v) ∧ holdsDataCommand (valueOf v s) = true

/-- The next step is the engine's, if the engine is enabled (R151). When it steps is the model's choice
(log entry 4). -/
def State.engineNext (s : State) : Prop :=
  s.script = [] ∨ s.script.head? = some .complete ∨ s.script.head? = some (.wait 0)

/-- Every byte of BUF outside a region reads as before. -/
def sameOutside (r : Region) (s t : State) : Prop :=
  ∀ x, ¬(r.base ≤ x ∧ x < r.base + r.len) → readByte t x = readByte s x

/-- A region of `len` bytes at `base` lies in BUF, or is empty (R63). -/
def fits (base len : Nat) (s : State) : Prop := len = 0 ∨ base + len ≤ s.bufSize

/-- Every source symbol is below `limit` (R165). -/
def sourceBelow (limit : Nat) (s : State) : Prop :=
  ∀ i, i < s.srclen.toNat → (readByte s (s.srcaddr.toNat + i)).toNat < limit

/-- V = sum for i in 0..n-1 of s_i * 2^(a*i), over the source bytes in BUF (R56, R92). -/
def sourceStream (a : Nat) (s : State) : Nat :=
  ∑ i ∈ Finset.range s.srclen.toNat, (readByte s (s.srcaddr.toNat + i)).toNat * 2 ^ (a * i)

/-- t is s after a fault-free Complete: the destination holds `out`, every other byte reads as before,
DSTLEN is the count, BUSY is 0, DONE is 1, the other bits of STATUS and every other field are as
before (R64, R94, R112, R135). -/
structure Completed (dst : Region) (out : Nat → Byte) (s t : State) : Prop where
  output : ∀ k, k < dst.len → readByte t (dst.base + k) = out k
  bytes : sameOutside dst s t
  dstlen : t.dstlen.toNat = dst.len
  busy : t.busy = false
  done : t.done = true
  status : ∀ i, 2 ≤ i → t.status.getLsbD i = s.status.getLsbD i
  rest : t = { s with buf := t.buf, dstlen := t.dstlen, status := t.status }

/-- STATUS after `raise Fault(c)`: ERR 1, BUSY and DONE 0, the first fault's code kept, the reserved bits
as before (R170). -/
structure FaultStatus (c : ErrCode) (s t : State) : Prop where
  err : t.err = true
  busy : t.busy = false
  done : t.done = false
  code : statusErrCode t.status = if s.err = true then statusErrCode s.status else c.code
  reserved : ∀ i, i = 3 ∨ 8 ≤ i → t.status.getLsbD i = s.status.getLsbD i

/-- t is s after a fault that leaves BUF alone: only STATUS changes (R170, R171). -/
def FaultOnly (c : ErrCode) (s t : State) : Prop :=
  FaultStatus c s t ∧ t = { s with status := t.status }

/-- t is s after a fault that may spoil the bytes of `lost`: STATUS records the fault, every byte outside
`lost` reads as before, every other register is kept (R170, R171). The number of unspecified bytes
drawn is the model's own. -/
def FaultLosing (c : ErrCode) (lost : Region) (s t : State) : Prop :=
  FaultStatus c s t ∧ sameOutside lost s t ∧
    t = { s with status := t.status, buf := t.buf, freeCount := t.freeCount }

end Sys2Proof.Machine
end

