-- ==== Sys2Proof/Certificates/Slice0/Obligations.lean ====
section
/-! DEFINITION. The statements for the provers. Each docstring names the rule of spec/ it comes from; a clause that is the model's choice names its log entry. -/

open Sys2Proof Sys2Proof.Machine

/-! ### Encoding -/

/-- R70, R72, R75: decoding the word of a well-formed command gives the command back. -/
def Obligations.DecodeInvertsEncode : Prop :=
  ∀ i : Instr, i.wellFormed = true → decode (encode i) = .ok i

/-- R75: each legal word has one meaning, and encoding that meaning gives the word back. -/
def Obligations.EncodeInvertsDecode : Prop :=
  ∀ (w : Word) (i : Instr), decode w = .ok i → i.wellFormed = true ∧ encode i = w

/-- R75: the decoder finds the row with w & mask = match, and a word that selects a row decodes to a
command of that row. -/
def Obligations.DecodeFollowsOpcodeMap : Prop :=
  ∀ w : Word,
    (∀ i, decode w = .ok i → i.row ∈ opcodeMap ∧ i.row.selects w = true) ∧
    (∀ r ∈ opcodeMap, r.selects w = true → ∃ i, decode w = .ok i ∧ i.row = r)

/-- R76, R77: a word decodes exactly when the written-out test Legal holds. -/
def Obligations.LegalWordsDecode : Prop :=
  ∀ w : Word, legalWord w = true ↔ ∃ i, decode w = .ok i

/-- R75: no word selects two rows. -/
def Obligations.OpcodeRowsDisjoint : Prop :=
  ∀ r ∈ opcodeMap, ∀ q ∈ opcodeMap, ∀ w : Word, r.selects w = true → q.selects w = true → r = q

/-- 95_test_vectors.md: words the spec writes out decode to the commands it gives. -/
def Obligations.SpecWordsDecode : Prop :=
  decode 0x0000 = .ok .nop ∧ decode 0x1850 = .ok (.conv 8 5) ∧ decode 0x2588 = .ok (.convip 5 8 true) ∧
  decode 0x2680 = .ok (.convip 6 8 false) ∧ decode 0x4000 = .ok .n2p32 ∧ decode 0x5000 = .ok .p2n32 ∧
  decode 0x6000 = .ok .n2p64 ∧ decode 0x7000 = .ok .p2n64 ∧ decode 0xF000 = .ok .srst ∧
  decode 0x3000 = .error (.reservedOpcode 3) ∧ decode 0x1858 = .error .reservedBits ∧
  decode 0xF008 = .error .reservedBits

/-! ### Reset -/

/-- R35: the registers and the hidden state after hardware reset. -/
def Obligations.ResetRegistersZero : Prop :=
  State.reset.cmdl = 0 ∧ State.reset.status = 0 ∧ State.reset.srcaddr = 0 ∧ State.reset.srclen = 0 ∧
  State.reset.dstaddr = 0 ∧ State.reset.dstlen = 0 ∧ State.reset.phase = .idle ∧
  State.reset.hidden = Hidden.cleared

/-- The invariant holds at reset. -/
def Obligations.InvariantAtReset : Prop := State.reset.Inv

/-- R190, R35: a hardware reset zeroes every register, clears the hidden state and makes every byte of
BUF unspecified anew. The model's choices: that the bytes are those of `Config.powerOnByte`, with their
count of resets, is its form of unspecified (log entry 2); that the host goes on after the reset, the
pending script and the last answer being kept, is log entry 14, and no rule says it. -/
def Obligations.HardwareResetClears : Prop :=
  ∀ (s : State) (rest : List Event), s.script = .hardwareReset :: rest →
    ∃ t, step s = .next t ∧
      t.cmdl = 0 ∧ t.status = 0 ∧ t.srcaddr = 0 ∧ t.srclen = 0 ∧ t.dstaddr = 0 ∧ t.dstlen = 0 ∧
      t.hidden = Hidden.cleared ∧ t.lastAddr = s.lastAddr ∧ t.script = rest ∧ t.answer = s.answer ∧
      t.resetCount = s.resetCount + 1 ∧ ∀ x, readByte t x = Config.powerOnByte t.resetCount x

/-! ### A step runs the command -/

/-- R150: a CMD write of a word that decodes to i is `exec i` on the host's turn, with the entry taken
off the script. -/
def Obligations.StepSubmitsCommand : Prop :=
  ∀ (s : State) (v : Value) (rest : List Event) (i : Instr),
    s.script = .writeReg .cmd v :: rest → decode (valueOf v s) = .ok i →
    step s = exec i { s with script := rest, agent := .host }

/-- R151: while BUSY the engine's step is `exec` of the command in CMDL on the engine's turn. WHEN the
engine steps is the model's choice (log entry 4): at a Complete mark, in a WAIT once its reads are over,
and when nothing is pending. R151 says only when it may step, R155 only that it does so eventually. -/
def Obligations.StepCompletesCommand : Prop :=
  ∀ (s : State) (i : Instr), s.busy = true → decode s.cmdl = .ok i →
    (s.script = [] → step s = exec i { s with agent := .engine }) ∧
    (∀ rest, s.script = .complete :: rest → step s = exec i { s with script := rest, agent := .engine }) ∧
    (∀ rest, s.script = .wait 0 :: rest → step s = exec i { s with agent := .engine })

/-- R161: an illegal word in phase IDLE or DONE raises ERR_ILLEGAL at the CMD write and changes nothing
but STATUS. -/
def Obligations.IllegalWordFaults : Prop :=
  ∀ (s : State) (v : Value) (rest : List Event),
    s.script = .writeReg .cmd v :: rest → legalWord (valueOf v s) = false →
    s.err = false → s.busy = false →
    ∃ t, step s = .next t ∧ FaultOnly .illegal { s with script := rest, agent := .host } t ∧
      statusErrCode t.status = 1

/-- R150, R166, R172, U9: in phase ERR an illegal word is ignored; in phase BUSY it raises ERR_BUSY like
any word but SRST. -/
def Obligations.IllegalWordInErrAndBusy : Prop :=
  ∀ (s : State) (v : Value) (rest : List Event),
    s.script = .writeReg .cmd v :: rest → legalWord (valueOf v s) = false →
    (s.err = true → step s = .next { s with script := rest, agent := .host }) ∧
    (s.err = false → s.busy = true →
      ∃ t, step s = .next t ∧ FaultLosing .busy (abortRegion s) { s with script := rest, agent := .host } t)

/-- R155: the engine has no step when BUSY = 0; an idle block does nothing by itself. The Complete mark,
and a step with nothing pending that keeps the state, are the model's form of this (log entry 4). -/
def Obligations.IdleEngineDoesNothing : Prop :=
  ∀ s : State, s.busy = false →
    (s.script = [] → step s = .next s) ∧
    (∀ rest, s.script = .complete :: rest → step s = .next { s with script := rest, agent := .host })

/-! ### The CMD write of each command -/

/-- R150: each of the six data commands, submitted in phase IDLE or DONE, is latched with whatever
widths it has; BUSY is set, DONE cleared, the hidden registers cleared, nothing else changes. -/
def Obligations.DataCommandAccepted : Prop :=
  ∀ (i : Instr) (s : State), i.isData = true → s.agent = .host → s.err = false → s.busy = false →
    ∃ t, exec i s = .next t ∧ t.cmdl = encode i ∧ t.busy = true ∧ t.done = false ∧
      (∀ j, 2 ≤ j → t.status.getLsbD j = s.status.getLsbD j) ∧
      t = { s with cmdl := t.cmdl, status := t.status, hidden := Hidden.cleared }

/-- R172: in phase ERR every command but SRST is ignored. -/
def Obligations.CommandIgnoredInErr : Prop :=
  ∀ (i : Instr) (s : State), i ≠ .srst → s.agent = .host → s.err = true → exec i s = .next s

/-- R166: a command other than SRST written while BUSY raises ERR_BUSY; the running command is aborted,
and only bytes of its AbortRegion may change. -/
def Obligations.CommandWhileBusyAborts : Prop :=
  ∀ (i : Instr) (s : State), i ≠ .srst → s.agent = .host → s.err = false → s.busy = true →
    ∃ t, exec i s = .next t ∧ FaultLosing .busy (abortRegion s) s t

/-- R152: NOP in phase IDLE or DONE changes nothing. -/
def Obligations.NopChangesNothing : Prop :=
  ∀ s : State, s.agent = .host → s.busy = false → exec .nop s = .next s

/-- R153: SRST in every phase zeroes the registers and the hidden state; BUF changes only inside
AbortRegion, and only when a command was running. -/
def Obligations.SrstClearsRegisters : Prop :=
  ∀ s : State, s.agent = .host →
    ∃ t, exec .srst s = .next t ∧
      t.cmdl = 0 ∧ t.status = 0 ∧ t.srcaddr = 0 ∧ t.srclen = 0 ∧ t.dstaddr = 0 ∧ t.dstlen = 0 ∧
      t.hidden = Hidden.cleared ∧ t.lastAddr = s.lastAddr ∧ t.resetCount = s.resetCount ∧
      t.script = s.script ∧ t.answer = s.answer ∧ t.agent = s.agent ∧
      sameOutside (abortRegion s) s t ∧ (s.busy = false → t.buf = s.buf ∧ t.freeCount = s.freeCount)

/-- R171: AbortRegion is the destination of the command in CMDL where its width, bounds and overlap
checks pass, and empty otherwise. -/
def Obligations.AbortRegionIsDestination : Prop :=
  ∀ s : State,
    (∀ a b, a < 16 → b < 16 → s.cmdl = encode (.conv a b) →
      ((1 ≤ a ∧ a ≤ 8 ∧ 1 ≤ b ∧ b ≤ 8) ∧ fits s.srcaddr.toNat s.srclen.toNat s ∧
        fits s.dstaddr.toNat (outLen s.srclen.toNat a b true) s ∧
        ¬((sourceRegion s).overlaps (convRegion a b s) = true) →
          abortRegion s = ⟨s.dstaddr.toNat, outLen s.srclen.toNat a b true⟩) ∧
      (¬((1 ≤ a ∧ a ≤ 8 ∧ 1 ≤ b ∧ b ≤ 8) ∧ fits s.srcaddr.toNat s.srclen.toNat s ∧
        fits s.dstaddr.toNat (outLen s.srclen.toNat a b true) s ∧
        ¬((sourceRegion s).overlaps (convRegion a b s) = true)) → (abortRegion s).len = 0)) ∧
    (∀ a b p, a < 16 → b < 16 → s.cmdl = encode (.convip a b p) →
      ((1 ≤ a ∧ a ≤ 8 ∧ 1 ≤ b ∧ b ≤ 8) ∧ fits s.srcaddr.toNat s.srclen.toNat s ∧
        fits s.srcaddr.toNat (outLen s.srclen.toNat a b p) s →
          abortRegion s = ⟨s.srcaddr.toNat, outLen s.srclen.toNat a b p⟩) ∧
      (¬((1 ≤ a ∧ a ≤ 8 ∧ 1 ≤ b ∧ b ≤ 8) ∧ fits s.srcaddr.toNat s.srclen.toNat s ∧
        fits s.srcaddr.toNat (outLen s.srclen.toNat a b p) s) → (abortRegion s).len = 0)) ∧
    (∀ i ∈ [Instr.n2p32, .p2n32, .n2p64, .p2n64], s.cmdl = encode i →
      (fits s.srcaddr.toNat s.srclen.toNat s → abortRegion s = ⟨s.srcaddr.toNat, s.srclen.toNat⟩) ∧
      (¬fits s.srcaddr.toNat s.srclen.toNat s → (abortRegion s).len = 0))

/-! ### The Complete step of each data command -/

/-- R94, R92, R64: CONV with legal widths, both regions in BUF and disjoint, and every source symbol
below 2^a: output symbol k is floor(V / 2^(b*k)) mod 2^b, and nothing else changes. -/
def Obligations.ConvCompletes : Prop :=
  ∀ (a b : Nat) (s : State), s.agent = .engine → 1 ≤ a → a ≤ 8 → 1 ≤ b → b ≤ 8 →
    fits s.srcaddr.toNat s.srclen.toNat s → fits s.dstaddr.toNat (outLen s.srclen.toNat a b true) s →
    (sourceRegion s).overlaps (convRegion a b s) = false → sourceBelow (2 ^ a) s →
    ∃ t, exec (.conv a b) s = .next t ∧
      Completed ⟨s.dstaddr.toNat, outLen s.srclen.toNat a b true⟩
        (fun k => BitVec.ofNat 8 (sourceStream a s / 2 ^ (b * k) % 2 ^ b)) s t

/-- R112, R92, R64: CONVIP with legal widths, both regions in BUF and every source symbol below 2^a: the
output overwrites the source from its start, computed from the source as it was. -/
def Obligations.ConvipCompletes : Prop :=
  ∀ (a b : Nat) (p : Bool) (s : State), s.agent = .engine → 1 ≤ a → a ≤ 8 → 1 ≤ b → b ≤ 8 →
    fits s.srcaddr.toNat s.srclen.toNat s → fits s.srcaddr.toNat (outLen s.srclen.toNat a b p) s →
    sourceBelow (2 ^ a) s →
    ∃ t, exec (.convip a b p) s = .next t ∧
      Completed ⟨s.srcaddr.toNat, outLen s.srclen.toNat a b p⟩
        (fun k => BitVec.ofNat 8 (sourceStream a s / 2 ^ (b * k) % 2 ^ b)) s t

/-- R136, R131, R135: N2P32 replaces each symbol below 32 by its character. -/
def Obligations.N2p32Completes : Prop :=
  ∀ s : State, s.agent = .engine → fits s.srcaddr.toNat s.srclen.toNat s → sourceBelow 32 s →
    ∃ t, exec .n2p32 s = .next t ∧
      Completed (sourceRegion s)
        (fun k => let v := (readByte s (s.srcaddr.toNat + k)).toNat
          if v ≤ 25 then BitVec.ofNat 8 (0x61 + v) else BitVec.ofNat 8 (0x32 + (v - 26))) s t

/-- R137, R132, R135: P2N32 replaces each byte by its symbol, every byte outside the alphabet by 0. -/
def Obligations.P2n32Completes : Prop :=
  ∀ s : State, s.agent = .engine → fits s.srcaddr.toNat s.srclen.toNat s →
    ∃ t, exec .p2n32 s = .next t ∧
      Completed (sourceRegion s)
        (fun k => let c := (readByte s (s.srcaddr.toNat + k)).toNat
          if 0x61 ≤ c ∧ c ≤ 0x7A then BitVec.ofNat 8 (c - 0x61)
          else if 0x32 ≤ c ∧ c ≤ 0x37 then BitVec.ofNat 8 (c - 0x32 + 26) else 0) s t

/-- R138, R133, R135: N2P64 replaces each symbol below 64 by its character. -/
def Obligations.N2p64Completes : Prop :=
  ∀ s : State, s.agent = .engine → fits s.srcaddr.toNat s.srclen.toNat s → sourceBelow 64 s →
    ∃ t, exec .n2p64 s = .next t ∧
      Completed (sourceRegion s)
        (fun k => let v := (readByte s (s.srcaddr.toNat + k)).toNat
          if v = 0 then 0x2C else if v = 1 then 0x2D
          else if v ≤ 11 then BitVec.ofNat 8 (0x30 + (v - 2))
          else if v ≤ 37 then BitVec.ofNat 8 (0x41 + (v - 12))
          else BitVec.ofNat 8 (0x61 + (v - 38))) s t

/-- R139, R134, R135: P2N64 replaces each byte by its symbol, every byte outside the alphabet by 0. -/
def Obligations.P2n64Completes : Prop :=
  ∀ s : State, s.agent = .engine → fits s.srcaddr.toNat s.srclen.toNat s →
    ∃ t, exec .p2n64 s = .next t ∧
      Completed (sourceRegion s)
        (fun k => let c := (readByte s (s.srcaddr.toNat + k)).toNat
          if c = 0x2C then 0 else if c = 0x2D then 1
          else if 0x30 ≤ c ∧ c ≤ 0x39 then BitVec.ofNat 8 (c - 0x30 + 2)
          else if 0x41 ≤ c ∧ c ≤ 0x5A then BitVec.ofNat 8 (c - 0x41 + 12)
          else if 0x61 ≤ c ∧ c ≤ 0x7A then BitVec.ofNat 8 (c - 0x61 + 38) else 0) s t

/-- R24, R94, R112, R135: with SRCLEN = 0 each data command (a conversion with legal widths) completes
with DSTLEN = 0 and no BUF change, whatever SRCADDR and DSTADDR hold. -/
def Obligations.EmptySourceCompletes : Prop :=
  ∀ (i : Instr) (s : State), s.agent = .engine → s.srclen = 0 →
    (i ∈ [Instr.n2p32, .p2n32, .n2p64, .p2n64] ∨
      ∃ a b p, (1 ≤ a ∧ a ≤ 8 ∧ 1 ≤ b ∧ b ≤ 8) ∧ (i = .conv a b ∨ i = .convip a b p)) →
    ∃ t, exec i s = .next t ∧ t.busy = false ∧ t.done = true ∧
      (∀ j, 2 ≤ j → t.status.getLsbD j = s.status.getLsbD j) ∧
      t = { s with dstlen := 0, status := t.status }

/-! ### The faults -/

/-- R162: CONV or CONVIP with a width outside 1..8 raises ERR_WIDTH before anything else; BUF and DSTLEN
are unchanged. -/
def Obligations.WidthFaultComesFirst : Prop :=
  ∀ (a b : Nat) (p : Bool) (s : State), s.agent = .engine → ¬(1 ≤ a ∧ a ≤ 8 ∧ 1 ≤ b ∧ b ≤ 8) →
    (∃ t, exec (.conv a b) s = .next t ∧ FaultOnly .width s t) ∧
    (∃ t, exec (.convip a b p) s = .next t ∧ FaultOnly .width s t)

/-- R163, R168: a region that is not in bounds raises ERR_BOUNDS before any BUF access. -/
def Obligations.BoundsFaultBeforeAccess : Prop :=
  ∀ s : State, s.agent = .engine →
    (∀ a b, (1 ≤ a ∧ a ≤ 8 ∧ 1 ≤ b ∧ b ≤ 8) →
      ¬(fits s.srcaddr.toNat s.srclen.toNat s ∧ fits s.dstaddr.toNat (outLen s.srclen.toNat a b true) s) →
      ∃ t, exec (.conv a b) s = .next t ∧ FaultOnly .bounds s t) ∧
    (∀ a b p, (1 ≤ a ∧ a ≤ 8 ∧ 1 ≤ b ∧ b ≤ 8) →
      ¬(fits s.srcaddr.toNat s.srclen.toNat s ∧ fits s.srcaddr.toNat (outLen s.srclen.toNat a b p) s) →
      ∃ t, exec (.convip a b p) s = .next t ∧ FaultOnly .bounds s t) ∧
    (∀ i ∈ [Instr.n2p32, .p2n32, .n2p64, .p2n64], ¬fits s.srcaddr.toNat s.srclen.toNat s →
      ∃ t, exec i s = .next t ∧ FaultOnly .bounds s t)

/-- R164, R168: CONV with both regions in BUF and sharing an address raises ERR_OVERLAP before any BUF
access, whatever the source holds. -/
def Obligations.OverlapFaultBeforeAccess : Prop :=
  ∀ (a b : Nat) (s : State) (x : Nat), s.agent = .engine → (1 ≤ a ∧ a ≤ 8 ∧ 1 ≤ b ∧ b ≤ 8) →
    fits s.srcaddr.toNat s.srclen.toNat s → fits s.dstaddr.toNat (outLen s.srclen.toNat a b true) s →
    (s.srcaddr.toNat ≤ x ∧ x < s.srcaddr.toNat + s.srclen.toNat) →
    (s.dstaddr.toNat ≤ x ∧ x < s.dstaddr.toNat + outLen s.srclen.toNat a b true) →
    ∃ t, exec (.conv a b) s = .next t ∧ FaultOnly .overlap s t

/-- R165, R171: a source symbol out of range raises ERR_SYMBOL; only the destination's bytes may change
and DSTLEN is kept. -/
def Obligations.SymbolFaultSpoilsDestination : Prop :=
  ∀ s : State, s.agent = .engine → fits s.srcaddr.toNat s.srclen.toNat s →
    (∀ a b, (1 ≤ a ∧ a ≤ 8 ∧ 1 ≤ b ∧ b ≤ 8) → fits s.dstaddr.toNat (outLen s.srclen.toNat a b true) s →
      (sourceRegion s).overlaps (convRegion a b s) = false → ¬sourceBelow (2 ^ a) s →
      ∃ t, exec (.conv a b) s = .next t ∧
        FaultLosing .symbol ⟨s.dstaddr.toNat, outLen s.srclen.toNat a b true⟩ s t) ∧
    (∀ a b p, (1 ≤ a ∧ a ≤ 8 ∧ 1 ≤ b ∧ b ≤ 8) → fits s.srcaddr.toNat (outLen s.srclen.toNat a b p) s →
      ¬sourceBelow (2 ^ a) s →
      ∃ t, exec (.convip a b p) s = .next t ∧
        FaultLosing .symbol ⟨s.srcaddr.toNat, outLen s.srclen.toNat a b p⟩ s t) ∧
    (¬sourceBelow 32 s → ∃ t, exec .n2p32 s = .next t ∧
      FaultLosing .symbol ⟨s.srcaddr.toNat, s.srclen.toNat⟩ s t) ∧
    (¬sourceBelow 64 s → ∃ t, exec .n2p64 s = .next t ∧
      FaultLosing .symbol ⟨s.srcaddr.toNat, s.srclen.toNat⟩ s t)

/-- R171, U6, in the model's form (log entry 3): the lost bytes are free values of their own, one a byte,
never used before; every other byte reads as before. -/
def Obligations.LostBytesAreFree : Prop :=
  ∀ (c : ErrCode) (r : Region) (s : State),
    (∀ j, j < r.len → readByte (raiseFault c r.addresses s) (r.base + j) = Config.freeByte (s.freeCount + j)) ∧
    sameOutside r s (raiseFault c r.addresses s) ∧
    (raiseFault c r.addresses s).freeCount = s.freeCount + r.len

/-- R167: the whole STATUS word of each fault, raised in IDLE, BUSY or DONE. -/
def Obligations.FaultStatusWords : Prop :=
  ∀ st ∈ [(0x0000 : Word), 0x0001, 0x0002],
    statusFaulted .illegal st = 0x0014 ∧ statusFaulted .width st = 0x0024 ∧
    statusFaulted .bounds st = 0x0034 ∧ statusFaulted .overlap st = 0x0044 ∧
    statusFaulted .symbol st = 0x0054 ∧ statusFaulted .busy st = 0x0064

/-- R64: a command that completes without fault changes the bytes of its destination region and no
others; an in-place contraction keeps its stale tail and CONV keeps its source. -/
def Obligations.FrameRule : Prop :=
  ∀ (s t : State), s.agent = .engine → t.err = false →
    (∀ a b, exec (.conv a b) s = .next t →
      sameOutside ⟨s.dstaddr.toNat, outLen s.srclen.toNat a b true⟩ s t ∧
      ∀ i, i < s.srclen.toNat → readByte t (s.srcaddr.toNat + i) = readByte s (s.srcaddr.toNat + i)) ∧
    (∀ a b p, exec (.convip a b p) s = .next t →
      sameOutside ⟨s.srcaddr.toNat, outLen s.srclen.toNat a b p⟩ s t ∧
      ∀ i, outLen s.srclen.toNat a b p ≤ i → i < s.srclen.toNat →
        readByte t (s.srcaddr.toNat + i) = readByte s (s.srcaddr.toNat + i)) ∧
    (∀ i ∈ [Instr.n2p32, .p2n32, .n2p64, .p2n64], exec i s = .next t → sameOutside (sourceRegion s) s t)

/-! ### The conversion -/

/-- R91: the output count. -/
def Obligations.OutputCount : Prop :=
  ∀ n a b : Nat, 1 ≤ b →
    outLen n a b false = n * a / b ∧
    (∀ p, n * a % b = 0 → outLen n a b p = n * a / b) ∧
    (n * a % b ≠ 0 → outLen n a b true = n * a / b + 1) ∧
    outLen n a b true = (n * a + b - 1) / b ∧
    ∀ p, outLen 0 a b p = 0

/-- R92, R93: every output symbol is below 2^b; the partial trailing symbol holds the leftover bits and
zeros above; with P = 0 it is dropped and the full groups are the same. -/
def Obligations.PartialSymbolHoldsLeftover : Prop :=
  ∀ (a b : Nat) (src : List Nat), (1 ≤ a ∧ a ≤ 8 ∧ 1 ≤ b ∧ b ≤ 8) → (∀ x ∈ src, x < 2 ^ a) →
    (∀ p, ∀ d ∈ convSymbols a b p src, d < 2 ^ b) ∧
    convSymbols a b false src = (convSymbols a b true src).take (src.length * a / b) ∧
    (src.length * a % b ≠ 0 →
      (convSymbols a b true src).getLast? = some (streamValue a src / 2 ^ (src.length * a / b * b)) ∧
      streamValue a src / 2 ^ (src.length * a / b * b) < 2 ^ (src.length * a % b))

/-- R98, which the spec derives from R92: the round trip. -/
def Obligations.RoundTrip : Prop :=
  ∀ (a b : Nat) (src : List Nat), (1 ≤ a ∧ a ≤ 8 ∧ 1 ≤ b ∧ b ≤ 8) → (∀ x ∈ src, x < 2 ^ a) →
    (∃ z, convSymbols b a true (convSymbols a b true src) = src ++ List.replicate z 0) ∧
    (src.length * a % b = 0 → convSymbols b a true (convSymbols a b true src) = src) ∧
    (a = 8 → convSymbols b 8 false (convSymbols 8 b true src) = src)

/-- R99: with equal widths the conversion is the identity, whatever P is. -/
def Obligations.EqualWidthsIdentity : Prop :=
  ∀ (a : Nat) (p : Bool) (src : List Byte), 1 ≤ a → a ≤ 8 → (∀ x ∈ src, x.toNat < 2 ^ a) →
    convBytes a a p src = src

/-- R95, whose equality the spec derives from R96: the streaming algorithm over the 16-bit and 4-bit
hidden registers emits exactly Conv. -/
def Obligations.StreamingEqualsConv : Prop :=
  ∀ (a b : Nat) (p : Bool) (src : List Byte), (1 ≤ a ∧ a ≤ 8 ∧ 1 ≤ b ∧ b ≤ 8) →
    (∀ x ∈ src, x.toNat < 2 ^ a) → streamBytes a b p src = convBytes a b p src

/-- R96: what the window holds before each read and after it; no bit is pushed out, and the count never
wraps. -/
def Obligations.WindowNeverOverflows : Prop :=
  ∀ (a b : Nat) (src : List Byte) (x : Byte), (1 ≤ a ∧ a ≤ 8 ∧ 1 ≤ b ∧ b ≤ 8) →
    (∀ y ∈ src, y.toNat < 2 ^ a) → x.toNat < 2 ^ a →
    let h := (streamGroups a b src Hidden.cleared).2
    h.workbits.toNat ≤ b - Nat.gcd a b ∧ h.work.toNat < 2 ^ h.workbits.toNat ∧
    (absorb a x h).workbits.toNat = h.workbits.toNat + a ∧
    (absorb a x h).workbits.toNat ≤ 14 ∧
    (absorb a x h).work.toNat = h.work.toNat + x.toNat * 2 ^ h.workbits.toNat ∧
    (absorb a x h).work.toNat < 2 ^ (absorb a x h).workbits.toNat

/-- R114: CONVIP gives the symbols CONV gives from the same source, without the last where P = 0 and
bits are left over. -/
def Obligations.ConvipMatchesConv : Prop :=
  ∀ (a b : Nat) (p : Bool) (s t u : State), s.agent = .engine →
    exec (.conv a b) s = .next t → t.err = false → exec (.convip a b p) s = .next u → u.err = false →
    (∀ k, k < u.dstlen.toNat → readByte u (s.srcaddr.toNat + k) = readByte t (s.dstaddr.toNat + k)) ∧
    t.dstlen.toNat = u.dstlen.toNat + (if p = false ∧ s.srclen.toNat * a % b ≠ 0 then 1 else 0)

/-- R116, as the spec derives it from R114: any schedule of reads and writes that obeys the hazard rule
and writes every output symbol leaves the buffer CONVIP leaves. -/
def Obligations.HazardScheduleAgrees : Prop :=
  ∀ (a b : Nat) (p : Bool) (s t : State) (sched : List MicroStep), s.agent = .engine →
    exec (.convip a b p) s = .next t → t.err = false →
    scheduleAllowed a b s.srclen.toNat (outLen s.srclen.toNat a b p) 0 sched = true →
    (∀ k, k < outLen s.srclen.toNat a b p → MicroStep.write k ∈ sched) →
    ∀ x, Memory.byteAt s.resetCount (runSchedule a b s.srcaddr.toNat s.resetCount sched s.buf) x = readByte t x

/-- R117: the recursive strategy with the stack PEND leaves the buffer CONVIP leaves. -/
def Obligations.RecursiveStrategyAgrees : Prop :=
  ∀ (a b : Nat) (p : Bool) (s t : State), s.agent = .engine →
    exec (.convip a b p) s = .next t → t.err = false →
    ∀ x, Memory.byteAt s.resetCount (recursiveInPlace a b p s) x = readByte t x

/-- R118: the ordered single pass without a stack leaves the buffer CONVIP leaves. -/
def Obligations.SinglePassAgrees : Prop :=
  ∀ (a b : Nat) (p : Bool) (s t : State), s.agent = .engine →
    exec (.convip a b p) s = .next t → t.err = false →
    ∀ x, Memory.byteAt s.resetCount (singlePass a b p s) x = readByte t x

/-- R140, which the spec derives from R131 to R134: the laws of the tables. -/
def Obligations.TableLaws : Prop :=
  (∀ v : Byte, v.toNat < 32 → tableEntry tableP2N32 (tableEntry tableN2P32 v) = v) ∧
  (∀ v : Byte, v.toNat < 64 → tableEntry tableP2N64 (tableEntry tableN2P64 v) = v) ∧
  (∀ c : Byte, (tableEntry tableP2N32 c).toNat < 32) ∧
  (∀ c : Byte, (tableEntry tableP2N64 c).toNat < 64) ∧
  (∀ c : Byte, tableEntry tableN2P32 (tableEntry tableP2N32 c) = c ↔ c ∈ tableN2P32) ∧
  (∀ c : Byte, tableEntry tableN2P64 (tableEntry tableP2N64 c) = c ↔ c ∈ tableN2P64) ∧
  (∀ c ∈ tableN2P32, (0x61 ≤ c.toNat ∧ c.toNat ≤ 0x7A) ∨ (0x32 ≤ c.toNat ∧ c.toNat ≤ 0x37))

/-! ### The host steps -/

/-- R50: HostReadReg returns the register, in every phase, and changes no state of the block. The model's
own: the value goes to its field `answer` (log entry 6), and STATUS reads 0 in its reserved bits whatever
they hold (log entry 13, deduced from R27). -/
def Obligations.ReadRegReturnsRegister : Prop :=
  ∀ (s : State) (r : Reg) (rest : List Event), s.script = .readReg r :: rest →
    ∃ t, step s = .next t ∧ t = { s with script := rest, agent := .host, answer := t.answer } ∧
      (r = .cmd → t.answer = s.cmdl) ∧ (r = .srcaddr → t.answer = s.srcaddr) ∧
      (r = .srclen → t.answer = s.srclen) ∧ (r = .dstaddr → t.answer = s.dstaddr) ∧
      (r = .dstlen → t.answer = s.dstlen) ∧
      (r = .status → ∀ i, t.answer.getLsbD i =
        (s.status.getLsbD i && decide (i ≤ 2 ∨ (4 ≤ i ∧ i ≤ 7))))

/-- R51: a write of SRCADDR, SRCLEN or DSTADDR while not BUSY stores the value and nothing else. -/
def Obligations.OperandWriteStores : Prop :=
  ∀ (s : State) (v : Value) (rest : List Event), s.busy = false →
    (s.script = .writeReg .srcaddr v :: rest →
      step s = .next { s with script := rest, agent := .host, srcaddr := valueOf v s }) ∧
    (s.script = .writeReg .srclen v :: rest →
      step s = .next { s with script := rest, agent := .host, srclen := valueOf v s }) ∧
    (s.script = .writeReg .dstaddr v :: rest →
      step s = .next { s with script := rest, agent := .host, dstaddr := valueOf v s })

/-- R51, R166: the same write while BUSY is not performed and raises ERR_BUSY. -/
def Obligations.OperandWriteWhileBusyFaults : Prop :=
  ∀ (s : State) (r : Reg) (v : Value) (rest : List Event), r ∈ [Reg.srcaddr, .srclen, .dstaddr] →
    s.script = .writeReg r v :: rest → s.busy = true → s.err = false →
    ∃ t, step s = .next t ∧ FaultLosing .busy (abortRegion s) { s with script := rest, agent := .host } t

/-- R21: writes of STATUS and DSTLEN are ignored in every state. -/
def Obligations.ReadOnlyWritesIgnored : Prop :=
  ∀ (s : State) (r : Reg) (v : Value) (rest : List Event), r ∈ [Reg.status, .dstlen] →
    s.script = .writeReg r v :: rest → step s = .next { s with script := rest, agent := .host }

/-- R52, R53: a buffer access while not BUSY reads the byte, or writes it and no other. Where the host
keeps the byte read, extended with zeros in the field `answer`, is the model's choice (log entry 6). -/
def Obligations.BufferAccessWhenFree : Prop :=
  ∀ (s : State) (addr : Nat) (rest : List Event), s.busy = false → addr < s.bufSize →
    (s.script = .readBuf addr :: rest →
      step s = .next { s with script := rest, agent := .host, answer := (readByte s addr).setWidth 16 }) ∧
    (∀ v, s.script = .writeBuf addr v :: rest →
      ∃ t, step s = .next t ∧ readByte t addr = v ∧ sameOutside ⟨addr, 1⟩ s t ∧
        t = { s with script := rest, agent := .host, buf := t.buf })

/-- R52, R53, R166, R171: a buffer access while BUSY raises ERR_BUSY; only AbortRegion, and the byte a
write names, may change. The unspecified value a read returns goes to the model's field `answer` (log
entries 3 and 6). -/
def Obligations.BufferAccessWhileBusyFaults : Prop :=
  ∀ (s : State) (addr : Nat) (rest : List Event), s.busy = true → s.err = false → addr < s.bufSize →
    (s.script = .readBuf addr :: rest →
      ∃ t, step s = .next t ∧ FaultStatus .busy s t ∧ sameOutside (abortRegion s) s t ∧
        t = { s with script := rest, agent := .host, status := t.status, buf := t.buf,
                     answer := t.answer, freeCount := t.freeCount }) ∧
    (∀ v, s.script = .writeBuf addr v :: rest →
      ∃ t, step s = .next t ∧ FaultStatus .busy s t ∧
        (∀ x, x ≠ addr → ¬((abortRegion s).base ≤ x ∧ x < (abortRegion s).base + (abortRegion s).len) →
          readByte t x = readByte s x) ∧
        t = { s with script := rest, agent := .host, status := t.status, buf := t.buf,
                     freeCount := t.freeCount })

/-- R52, R53: an address of BUF_SIZE or more does not exist. That the model stops there, by name, is
deduced (log entry 8). -/
def Obligations.AbsentAddressStops : Prop :=
  ∀ (s : State) (addr : Nat) (v : Byte) (rest : List Event), s.bufSize ≤ addr →
    (s.script = .readBuf addr :: rest → step s = .fault .absentBufAddress) ∧
    (s.script = .writeBuf addr v :: rest → step s = .fault .absentBufAddress)

/-! ### The machine -/

/-- Every step keeps the invariant (R22, R27 to R29). Its clause on the hidden registers, that they are
clear after a Complete too, is the model's choice (log entry 10): R94, R112 and R135 say that Complete
writes nothing else, while R31 to R33 give those registers no meaning between commands. -/
def Obligations.StepKeepsInvariant : Prop :=
  ∀ s t : State, s.Inv → step s = .next t → t.Inv

/-- R36: the transitions between the four phases, and there is no other. Which entry of the script makes
the engine step is the model's choice (log entry 4). -/
def Obligations.PhaseTransitions : Prop :=
  ∀ s t : State, s.Inv → step s = .next t →
    t.phase = s.phase ∨
    ((s.phase = .idle ∨ s.phase = .done) ∧ t.phase = .busy ∧ s.submitsDataNext) ∨
    (s.phase = .busy ∧ t.phase = .done ∧ s.engineNext) ∨
    (s.phase ≠ .err ∧ t.phase = .err) ∨
    (t.phase = .idle ∧ s.resetsNext)

/-- R172: ERR and its code stay until SRST or a hardware reset, and a CMD write of another word changes
nothing. -/
def Obligations.ErrIsSticky : Prop :=
  ∀ s t : State, s.err = true → step s = .next t → ¬s.resetsNext →
    t.err = true ∧ statusErrCode t.status = statusErrCode s.status ∧
    ∀ v rest, s.script = .writeReg .cmd v :: rest → t = { s with script := rest, agent := .host }

/-- R22 to R25: the engine's step never writes SRCADDR, SRCLEN, DSTADDR or CMDL. Which step is the
engine's is the model's choice (log entry 4). -/
def Obligations.EngineKeepsOperandRegisters : Prop :=
  ∀ s t : State, s.engineNext → step s = .next t →
    t.srcaddr = s.srcaddr ∧ t.srclen = s.srclen ∧ t.dstaddr = s.dstaddr ∧ t.cmdl = s.cmdl

/-- R7: BUF_SIZE is a parameter, in 1..65535, that no step changes. -/
def Obligations.BufSizeNeverChanges : Prop :=
  ∀ s t : State, step s = .next t → t.bufSize = s.bufSize ∧ 1 ≤ t.bufSize ∧ t.bufSize ≤ 65535

/-- R155, R79: a host that waits sees its command end. R155 says only that the engine steps eventually:
the count of exactly k + 2 steps (k reads that show BUSY, the engine's step, one more read) is the
model's choice of when it steps (log entry 4), and the value read stands in the model's field `answer`
(log entry 6). -/
def Obligations.WaitEndsCommand : Prop :=
  ∀ (s : State) (k : Nat) (rest : List Event), s.Inv → s.busy = true → s.script = .wait k :: rest →
    ∃ t : State, Host.Core.run core (k + 2) s = .next t ∧ t.busy = false ∧
      (t.phase = .done ∨ t.phase = .err) ∧ t.script = rest ∧ statusBusy t.answer = false

/-- R34, R154: nothing the host can see depends on the hidden registers' earlier values. -/
def Obligations.HiddenStateHasNoInfluence : Prop :=
  ∀ (s t : State) (h : Hidden), step s = .next t →
    ∃ h', step { s with hidden := h } = .next { t with hidden := h' }

/-- From a state of the invariant whose script names only addresses that exist, no run ever stops: the
two faults of the model are out of reach (R52, R151; U1 to U14, none is stuck). What the model's faults
are (log entries 8 and 9) and how a run goes on when nothing is pending (log entry 4) are its own. -/
def Obligations.RunNeverStops : Prop :=
  ∀ (s : State) (n : Nat), s.Inv → s.scriptExists = true → ∃ t : State, Host.Core.run core n s = .next t
end

