-- ==== Sys2Proof/Laws/Flags.lean ====
section
/-! SUPPORT. What each update of STATUS does to each of its fields (R27, R150, R170). -/

namespace Sys2Proof.Machine

@[simp] theorem statusAccepted_busy (st : Word) : statusBusy (statusAccepted st) = true := by
  simp [statusBusy, statusAccepted]

@[simp] theorem statusAccepted_done (st : Word) : statusDone (statusAccepted st) = false := by
  simp [statusDone, statusAccepted]

@[simp] theorem statusAccepted_err (st : Word) : statusErr (statusAccepted st) = statusErr st := by
  simp [statusErr, statusAccepted]

@[simp] theorem statusCompleted_busy (st : Word) : statusBusy (statusCompleted st) = false := by
  simp [statusBusy, statusCompleted]

@[simp] theorem statusCompleted_done (st : Word) : statusDone (statusCompleted st) = true := by
  simp [statusDone, statusCompleted]

@[simp] theorem statusCompleted_err (st : Word) : statusErr (statusCompleted st) = statusErr st := by
  simp [statusErr, statusCompleted]

@[simp] theorem statusFaulted_err (c : ErrCode) (st : Word) : statusErr (statusFaulted c st) = true := by
  simp [statusErr, statusFaulted]

@[simp] theorem statusFaulted_busy (c : ErrCode) (st : Word) : statusBusy (statusFaulted c st) = false := by
  simp [statusBusy, statusFaulted]

@[simp] theorem statusFaulted_done (c : ErrCode) (st : Word) : statusDone (statusFaulted c st) = false := by
  simp [statusDone, statusFaulted]

/-- Acceptance keeps every bit of STATUS but BUSY and DONE (R150). -/
theorem statusAccepted_high (st : Word) {j : Nat} (h : 2 ≤ j) : (statusAccepted st).getLsbD j = st.getLsbD j := by
  by_cases hj : j < 16
  · interval_cases j <;> simp [statusAccepted]
  · rw [BitVec.getLsbD_of_ge _ j (by omega), BitVec.getLsbD_of_ge _ j (by omega)]

/-- Complete keeps every bit of STATUS but BUSY and DONE. -/
theorem statusCompleted_high (st : Word) {j : Nat} (h : 2 ≤ j) : (statusCompleted st).getLsbD j = st.getLsbD j := by
  by_cases hj : j < 16
  · interval_cases j <;> simp [statusCompleted]
  · rw [BitVec.getLsbD_of_ge _ j (by omega), BitVec.getLsbD_of_ge _ j (by omega)]

/-- A fault keeps the reserved bits of STATUS (R170). -/
theorem statusFaulted_reserved (c : ErrCode) (st : Word) {j : Nat} (h : j = 3 ∨ 8 ≤ j) :
    (statusFaulted c st).getLsbD j = st.getLsbD j := by
  by_cases hj : j < 16
  · have hj' : j = 3 ∨ j = 8 ∨ j = 9 ∨ j = 10 ∨ j = 11 ∨ j = 12 ∨ j = 13 ∨ j = 14 ∨ j = 15 := by omega
    cases he : statusErr st <;> rcases hj' with rfl | rfl | rfl | rfl | rfl | rfl | rfl | rfl | rfl <;>
      cases c <;> simp [statusFaulted, he, ErrCode.code]
  · rw [BitVec.getLsbD_of_ge _ j (by omega), BitVec.getLsbD_of_ge _ j (by omega)]

/-- ERRCODE keeps the first fault's code (R170). -/
theorem statusFaulted_code (c : ErrCode) (st : Word) :
    statusErrCode (statusFaulted c st) = if statusErr st then statusErrCode st else c.code := by
  apply BitVec.eq_of_getLsbD_eq
  intro i hi
  cases he : statusErr st <;> interval_cases i <;> cases c <;>
    simp [statusErrCode, statusFaulted, he, ErrCode.code]

@[simp] theorem statusZero_busy : statusBusy 0 = false := rfl

@[simp] theorem statusZero_err : statusErr 0 = false := rfl

end Sys2Proof.Machine
end

