-- ==== Sys2Proof/Laws/State.lean ====
section
/-! SUPPORT. For each update of State, what it does to each field: one lemma a field, so that no proof unfolds an update. -/

namespace Sys2Proof.Machine

/-! ### unspecify -/

/-- Making bytes unspecified changes only BUF and the count of free bytes drawn. -/
theorem unspecify_eq (l : List Nat) (s : State) :
    unspecify l s = { s with buf := (unspecify l s).buf, freeCount := s.freeCount + l.length } := by
  induction l generalizing s with
  | nil => rfl
  | cons a rest ih =>
    rw [unspecify, ih]
    simp only [List.length_cons, Nat.add_assoc, Nat.add_comm 1]

@[simp] theorem unspecify_lastAddr (l : List Nat) (s : State) : (unspecify l s).lastAddr = s.lastAddr := by rw [unspecify_eq]
@[simp] theorem unspecify_cmdl (l : List Nat) (s : State) : (unspecify l s).cmdl = s.cmdl := by rw [unspecify_eq]
@[simp] theorem unspecify_status (l : List Nat) (s : State) : (unspecify l s).status = s.status := by rw [unspecify_eq]
@[simp] theorem unspecify_srcaddr (l : List Nat) (s : State) : (unspecify l s).srcaddr = s.srcaddr := by rw [unspecify_eq]
@[simp] theorem unspecify_srclen (l : List Nat) (s : State) : (unspecify l s).srclen = s.srclen := by rw [unspecify_eq]
@[simp] theorem unspecify_dstaddr (l : List Nat) (s : State) : (unspecify l s).dstaddr = s.dstaddr := by rw [unspecify_eq]
@[simp] theorem unspecify_dstlen (l : List Nat) (s : State) : (unspecify l s).dstlen = s.dstlen := by rw [unspecify_eq]
@[simp] theorem unspecify_hidden (l : List Nat) (s : State) : (unspecify l s).hidden = s.hidden := by rw [unspecify_eq]
@[simp] theorem unspecify_agent (l : List Nat) (s : State) : (unspecify l s).agent = s.agent := by rw [unspecify_eq]
@[simp] theorem unspecify_script (l : List Nat) (s : State) : (unspecify l s).script = s.script := by rw [unspecify_eq]
@[simp] theorem unspecify_answer (l : List Nat) (s : State) : (unspecify l s).answer = s.answer := by rw [unspecify_eq]
@[simp] theorem unspecify_resetCount (l : List Nat) (s : State) : (unspecify l s).resetCount = s.resetCount := by rw [unspecify_eq]
@[simp] theorem unspecify_freeCount (l : List Nat) (s : State) : (unspecify l s).freeCount = s.freeCount + l.length := by rw [unspecify_eq]

/-! ### writeByte -/

@[simp] theorem writeByte_lastAddr (a : Nat) (v : Byte) (s : State) : (writeByte a v s).lastAddr = s.lastAddr := rfl
@[simp] theorem writeByte_cmdl (a : Nat) (v : Byte) (s : State) : (writeByte a v s).cmdl = s.cmdl := rfl
@[simp] theorem writeByte_status (a : Nat) (v : Byte) (s : State) : (writeByte a v s).status = s.status := rfl
@[simp] theorem writeByte_srcaddr (a : Nat) (v : Byte) (s : State) : (writeByte a v s).srcaddr = s.srcaddr := rfl
@[simp] theorem writeByte_srclen (a : Nat) (v : Byte) (s : State) : (writeByte a v s).srclen = s.srclen := rfl
@[simp] theorem writeByte_dstaddr (a : Nat) (v : Byte) (s : State) : (writeByte a v s).dstaddr = s.dstaddr := rfl
@[simp] theorem writeByte_dstlen (a : Nat) (v : Byte) (s : State) : (writeByte a v s).dstlen = s.dstlen := rfl
@[simp] theorem writeByte_buf (a : Nat) (v : Byte) (s : State) : (writeByte a v s).buf = Memory.write s.buf a v := rfl
@[simp] theorem writeByte_hidden (a : Nat) (v : Byte) (s : State) : (writeByte a v s).hidden = s.hidden := rfl
@[simp] theorem writeByte_agent (a : Nat) (v : Byte) (s : State) : (writeByte a v s).agent = s.agent := rfl
@[simp] theorem writeByte_script (a : Nat) (v : Byte) (s : State) : (writeByte a v s).script = s.script := rfl
@[simp] theorem writeByte_answer (a : Nat) (v : Byte) (s : State) : (writeByte a v s).answer = s.answer := rfl
@[simp] theorem writeByte_resetCount (a : Nat) (v : Byte) (s : State) : (writeByte a v s).resetCount = s.resetCount := rfl
@[simp] theorem writeByte_freeCount (a : Nat) (v : Byte) (s : State) : (writeByte a v s).freeCount = s.freeCount := rfl

/-! ### raiseFault -/

@[simp] theorem raiseFault_lastAddr (c : ErrCode) (l : List Nat) (s : State) : (raiseFault c l s).lastAddr = s.lastAddr := by simp [raiseFault]
@[simp] theorem raiseFault_cmdl (c : ErrCode) (l : List Nat) (s : State) : (raiseFault c l s).cmdl = s.cmdl := by simp [raiseFault]
@[simp] theorem raiseFault_status (c : ErrCode) (l : List Nat) (s : State) : (raiseFault c l s).status = statusFaulted c s.status := by simp [raiseFault]
@[simp] theorem raiseFault_srcaddr (c : ErrCode) (l : List Nat) (s : State) : (raiseFault c l s).srcaddr = s.srcaddr := by simp [raiseFault]
@[simp] theorem raiseFault_srclen (c : ErrCode) (l : List Nat) (s : State) : (raiseFault c l s).srclen = s.srclen := by simp [raiseFault]
@[simp] theorem raiseFault_dstaddr (c : ErrCode) (l : List Nat) (s : State) : (raiseFault c l s).dstaddr = s.dstaddr := by simp [raiseFault]
@[simp] theorem raiseFault_dstlen (c : ErrCode) (l : List Nat) (s : State) : (raiseFault c l s).dstlen = s.dstlen := by simp [raiseFault]
@[simp] theorem raiseFault_buf (c : ErrCode) (l : List Nat) (s : State) : (raiseFault c l s).buf = (unspecify l s).buf := by simp [raiseFault]
@[simp] theorem raiseFault_hidden (c : ErrCode) (l : List Nat) (s : State) : (raiseFault c l s).hidden = s.hidden := by simp [raiseFault]
@[simp] theorem raiseFault_agent (c : ErrCode) (l : List Nat) (s : State) : (raiseFault c l s).agent = s.agent := by simp [raiseFault]
@[simp] theorem raiseFault_script (c : ErrCode) (l : List Nat) (s : State) : (raiseFault c l s).script = s.script := by simp [raiseFault]
@[simp] theorem raiseFault_answer (c : ErrCode) (l : List Nat) (s : State) : (raiseFault c l s).answer = s.answer := by simp [raiseFault]
@[simp] theorem raiseFault_resetCount (c : ErrCode) (l : List Nat) (s : State) : (raiseFault c l s).resetCount = s.resetCount := by simp [raiseFault]
@[simp] theorem raiseFault_freeCount (c : ErrCode) (l : List Nat) (s : State) : (raiseFault c l s).freeCount = s.freeCount + l.length := by simp [raiseFault]

/-! ### softReset -/

@[simp] theorem softReset_lastAddr (s : State) : (softReset s).lastAddr = s.lastAddr := by unfold softReset; split <;> simp
@[simp] theorem softReset_cmdl (s : State) : (softReset s).cmdl = 0 := by unfold softReset; split <;> simp
@[simp] theorem softReset_status (s : State) : (softReset s).status = 0 := by unfold softReset; split <;> simp
@[simp] theorem softReset_srcaddr (s : State) : (softReset s).srcaddr = 0 := by unfold softReset; split <;> simp
@[simp] theorem softReset_srclen (s : State) : (softReset s).srclen = 0 := by unfold softReset; split <;> simp
@[simp] theorem softReset_dstaddr (s : State) : (softReset s).dstaddr = 0 := by unfold softReset; split <;> simp
@[simp] theorem softReset_dstlen (s : State) : (softReset s).dstlen = 0 := by unfold softReset; split <;> simp
@[simp] theorem softReset_hidden (s : State) : (softReset s).hidden = Hidden.cleared := by unfold softReset; split <;> simp
@[simp] theorem softReset_agent (s : State) : (softReset s).agent = s.agent := by unfold softReset; split <;> simp
@[simp] theorem softReset_script (s : State) : (softReset s).script = s.script := by unfold softReset; split <;> simp
@[simp] theorem softReset_answer (s : State) : (softReset s).answer = s.answer := by unfold softReset; split <;> simp
@[simp] theorem softReset_resetCount (s : State) : (softReset s).resetCount = s.resetCount := by unfold softReset; split <;> simp

/-- SRST keeps BUF unless a command was running (R153). -/
theorem softReset_buf (s : State) :
    (softReset s).buf = if s.busy then (unspecify (abortRegion s).addresses s).buf else s.buf := by
  unfold softReset; split <;> simp

theorem softReset_freeCount (s : State) :
    (softReset s).freeCount = if s.busy then s.freeCount + (abortRegion s).addresses.length else s.freeCount := by
  unfold softReset; split <;> simp

/-! ### hardwareReset -/

@[simp] theorem hardwareReset_lastAddr (s : State) : (hardwareReset s).lastAddr = s.lastAddr := rfl
@[simp] theorem hardwareReset_cmdl (s : State) : (hardwareReset s).cmdl = 0 := rfl
@[simp] theorem hardwareReset_status (s : State) : (hardwareReset s).status = 0 := rfl
@[simp] theorem hardwareReset_srcaddr (s : State) : (hardwareReset s).srcaddr = 0 := rfl
@[simp] theorem hardwareReset_srclen (s : State) : (hardwareReset s).srclen = 0 := rfl
@[simp] theorem hardwareReset_dstaddr (s : State) : (hardwareReset s).dstaddr = 0 := rfl
@[simp] theorem hardwareReset_dstlen (s : State) : (hardwareReset s).dstlen = 0 := rfl
@[simp] theorem hardwareReset_buf (s : State) : (hardwareReset s).buf = [] := rfl
@[simp] theorem hardwareReset_hidden (s : State) : (hardwareReset s).hidden = Hidden.cleared := rfl
@[simp] theorem hardwareReset_agent (s : State) : (hardwareReset s).agent = s.agent := rfl
@[simp] theorem hardwareReset_script (s : State) : (hardwareReset s).script = s.script := rfl
@[simp] theorem hardwareReset_answer (s : State) : (hardwareReset s).answer = s.answer := rfl
@[simp] theorem hardwareReset_resetCount (s : State) : (hardwareReset s).resetCount = s.resetCount + 1 := rfl
@[simp] theorem hardwareReset_freeCount (s : State) : (hardwareReset s).freeCount = s.freeCount := rfl

/-! ### latch -/

@[simp] theorem latch_lastAddr (w : Word) (s : State) : (latch w s).lastAddr = s.lastAddr := rfl
@[simp] theorem latch_cmdl (w : Word) (s : State) : (latch w s).cmdl = w := rfl
@[simp] theorem latch_status (w : Word) (s : State) : (latch w s).status = statusAccepted s.status := rfl
@[simp] theorem latch_srcaddr (w : Word) (s : State) : (latch w s).srcaddr = s.srcaddr := rfl
@[simp] theorem latch_srclen (w : Word) (s : State) : (latch w s).srclen = s.srclen := rfl
@[simp] theorem latch_dstaddr (w : Word) (s : State) : (latch w s).dstaddr = s.dstaddr := rfl
@[simp] theorem latch_dstlen (w : Word) (s : State) : (latch w s).dstlen = s.dstlen := rfl
@[simp] theorem latch_buf (w : Word) (s : State) : (latch w s).buf = s.buf := rfl
@[simp] theorem latch_hidden (w : Word) (s : State) : (latch w s).hidden = Hidden.cleared := rfl
@[simp] theorem latch_agent (w : Word) (s : State) : (latch w s).agent = s.agent := rfl
@[simp] theorem latch_script (w : Word) (s : State) : (latch w s).script = s.script := rfl
@[simp] theorem latch_answer (w : Word) (s : State) : (latch w s).answer = s.answer := rfl
@[simp] theorem latch_resetCount (w : Word) (s : State) : (latch w s).resetCount = s.resetCount := rfl
@[simp] theorem latch_freeCount (w : Word) (s : State) : (latch w s).freeCount = s.freeCount := rfl

/-! ### finish -/

@[simp] theorem finish_lastAddr (r : Region) (out : List Byte) (s : State) : (finish r out s).lastAddr = s.lastAddr := rfl
@[simp] theorem finish_cmdl (r : Region) (out : List Byte) (s : State) : (finish r out s).cmdl = s.cmdl := rfl
@[simp] theorem finish_status (r : Region) (out : List Byte) (s : State) : (finish r out s).status = statusCompleted s.status := rfl
@[simp] theorem finish_srcaddr (r : Region) (out : List Byte) (s : State) : (finish r out s).srcaddr = s.srcaddr := rfl
@[simp] theorem finish_srclen (r : Region) (out : List Byte) (s : State) : (finish r out s).srclen = s.srclen := rfl
@[simp] theorem finish_dstaddr (r : Region) (out : List Byte) (s : State) : (finish r out s).dstaddr = s.dstaddr := rfl
@[simp] theorem finish_dstlen (r : Region) (out : List Byte) (s : State) : (finish r out s).dstlen = BitVec.ofNat 16 r.len := rfl
@[simp] theorem finish_buf (r : Region) (out : List Byte) (s : State) : (finish r out s).buf = Memory.writeBytes s.buf r.base out := rfl
@[simp] theorem finish_hidden (r : Region) (out : List Byte) (s : State) : (finish r out s).hidden = s.hidden := rfl
@[simp] theorem finish_agent (r : Region) (out : List Byte) (s : State) : (finish r out s).agent = s.agent := rfl
@[simp] theorem finish_script (r : Region) (out : List Byte) (s : State) : (finish r out s).script = s.script := rfl
@[simp] theorem finish_answer (r : Region) (out : List Byte) (s : State) : (finish r out s).answer = s.answer := rfl
@[simp] theorem finish_resetCount (r : Region) (out : List Byte) (s : State) : (finish r out s).resetCount = s.resetCount := rfl
@[simp] theorem finish_freeCount (r : Region) (out : List Byte) (s : State) : (finish r out s).freeCount = s.freeCount := rfl

/-! ### hostReadReg -/

@[simp] theorem hostReadReg_lastAddr (r : Reg) (s : State) : (hostReadReg r s).lastAddr = s.lastAddr := rfl
@[simp] theorem hostReadReg_cmdl (r : Reg) (s : State) : (hostReadReg r s).cmdl = s.cmdl := rfl
@[simp] theorem hostReadReg_status (r : Reg) (s : State) : (hostReadReg r s).status = s.status := rfl
@[simp] theorem hostReadReg_srcaddr (r : Reg) (s : State) : (hostReadReg r s).srcaddr = s.srcaddr := rfl
@[simp] theorem hostReadReg_srclen (r : Reg) (s : State) : (hostReadReg r s).srclen = s.srclen := rfl
@[simp] theorem hostReadReg_dstaddr (r : Reg) (s : State) : (hostReadReg r s).dstaddr = s.dstaddr := rfl
@[simp] theorem hostReadReg_dstlen (r : Reg) (s : State) : (hostReadReg r s).dstlen = s.dstlen := rfl
@[simp] theorem hostReadReg_buf (r : Reg) (s : State) : (hostReadReg r s).buf = s.buf := rfl
@[simp] theorem hostReadReg_hidden (r : Reg) (s : State) : (hostReadReg r s).hidden = s.hidden := rfl
@[simp] theorem hostReadReg_agent (r : Reg) (s : State) : (hostReadReg r s).agent = s.agent := rfl
@[simp] theorem hostReadReg_script (r : Reg) (s : State) : (hostReadReg r s).script = s.script := rfl
@[simp] theorem hostReadReg_answer (r : Reg) (s : State) : (hostReadReg r s).answer = readReg r s := rfl
@[simp] theorem hostReadReg_resetCount (r : Reg) (s : State) : (hostReadReg r s).resetCount = s.resetCount := rfl
@[simp] theorem hostReadReg_freeCount (r : Reg) (s : State) : (hostReadReg r s).freeCount = s.freeCount := rfl

end Sys2Proof.Machine
end

