-- ==== Sys2Proof/Laws/Memory.lean ====
section
/-! SUPPORT. BUF: reading after writing, the canonical form and the listed addresses under every memory operation. -/

namespace Sys2Proof.Machine

@[simp] theorem find_write_same (m : Memory) (a : Nat) (v : Byte) : Memory.find (Memory.write m a v) a = some v := by
  induction m with
  | nil => simp [Memory.write, Memory.find]
  | cons c rest ih =>
    obtain ⟨k, x⟩ := c
    by_cases h1 : a < k
    · simp [Memory.write, h1, Memory.find]
    · by_cases h2 : a = k
      · simp [Memory.write, h2, Memory.find]
      · simp [Memory.write, h1, h2, Memory.find, ih, Ne.symm h2]

theorem find_write_ne (m : Memory) {a x : Nat} (v : Byte) (h : x ≠ a) :
    Memory.find (Memory.write m a v) x = Memory.find m x := by
  induction m with
  | nil => simp [Memory.write, Memory.find, Ne.symm h]
  | cons c rest ih =>
    obtain ⟨k, y⟩ := c
    by_cases h1 : a < k
    · simp [Memory.write, h1, Memory.find, Ne.symm h]
    · by_cases h2 : a = k
      · subst h2; simp [Memory.write, Memory.find, Ne.symm h]
      · simp [Memory.write, h1, h2, Memory.find, ih]

@[simp] theorem byteAt_write_same (n : Nat) (m : Memory) (a : Nat) (v : Byte) :
    Memory.byteAt n (Memory.write m a v) a = v := by
  simp [Memory.byteAt]

theorem byteAt_write_ne (n : Nat) (m : Memory) {a x : Nat} (v : Byte) (h : x ≠ a) :
    Memory.byteAt n (Memory.write m a v) x = Memory.byteAt n m x := by
  simp [Memory.byteAt, find_write_ne m v h]

/-- A write lists only the written address anew. -/
theorem mem_write {m : Memory} {a : Nat} {v : Byte} {c : Host.Cell} (h : c ∈ Memory.write m a v) :
    c = (a, v) ∨ c ∈ m := by
  induction m with
  | nil => simpa [Memory.write] using h
  | cons d rest ih =>
    obtain ⟨k, x⟩ := d
    unfold Memory.write at h
    split at h
    · simpa using h
    · split at h
      · rcases List.mem_cons.mp h with h | h
        · exact .inl h
        · exact .inr (List.mem_cons_of_mem _ h)
      · rcases List.mem_cons.mp h with h | h
        · exact .inr (by simp [h])
        · rcases ih h with h | h
          · exact .inl h
          · exact .inr (List.mem_cons_of_mem _ h)

/-- A write keeps the canonical form. -/
theorem write_wf {m : Memory} (a : Nat) (v : Byte) (h : Memory.wf m) : Memory.wf (Memory.write m a v) := by
  induction m with
  | nil => simp [Memory.write]
  | cons d rest ih =>
    obtain ⟨k, x⟩ := d
    obtain ⟨hk, hr⟩ := List.pairwise_cons.mp h
    unfold Memory.write
    split
    · rename_i hlt
      refine List.pairwise_cons.mpr ⟨fun c hc => ?_, h⟩
      rcases List.mem_cons.mp hc with rfl | hc
      · exact hlt
      · exact hlt.trans (hk c hc)
    · split
      · rename_i heq; subst heq
        exact List.pairwise_cons.mpr ⟨hk, hr⟩
      · refine List.pairwise_cons.mpr ⟨fun c hc => ?_, ih hr⟩
        rcases mem_write hc with rfl | hc
        · show k < a; omega
        · exact hk c hc

theorem writeBytes_wf {m : Memory} (base : Nat) (out : List Byte) (h : Memory.wf m) :
    Memory.wf (Memory.writeBytes m base out) := by
  induction out generalizing m base with
  | nil => exact h
  | cons v rest ih => exact ih (base + 1) (write_wf base v h)

/-- Writing consecutive bytes lists only their addresses anew. -/
theorem mem_writeBytes {m : Memory} {base : Nat} {out : List Byte} {c : Host.Cell}
    (h : c ∈ Memory.writeBytes m base out) : (base ≤ c.1 ∧ c.1 < base + out.length) ∨ c ∈ m := by
  induction out generalizing m base with
  | nil => exact .inr h
  | cons v rest ih =>
    rcases ih h with h | h
    · exact .inl (by simp only [List.length_cons]; omega)
    · rcases mem_write h with rfl | h
      · exact .inl (by simp only [List.length_cons]; omega)
      · exact .inr h

theorem byteAt_writeBytes_outside (n : Nat) (m : Memory) (base : Nat) (out : List Byte) {x : Nat}
    (h : ¬(base ≤ x ∧ x < base + out.length)) :
    Memory.byteAt n (Memory.writeBytes m base out) x = Memory.byteAt n m x := by
  induction out generalizing m base with
  | nil => rfl
  | cons v rest ih =>
    simp only [List.length_cons] at h
    rw [Memory.writeBytes, ih _ _ (by omega), byteAt_write_ne]
    omega

theorem byteAt_writeBytes_inside (n : Nat) (m : Memory) (base : Nat) (out : List Byte) {k : Nat}
    (h : k < out.length) : Memory.byteAt n (Memory.writeBytes m base out) (base + k) = out[k] := by
  induction out generalizing m base k with
  | nil => simp at h
  | cons v rest ih =>
    rw [Memory.writeBytes]
    cases k with
    | zero => rw [byteAt_writeBytes_outside _ _ _ _ (by omega)]; simp
    | succ k =>
      rw [show base + (k + 1) = base + 1 + k by omega, ih _ _ (by simpa using h)]; simp

/-- The writes on the way back from the recursion keep the canonical form (R117). -/
theorem unwind_wf {m : Memory} (base : Nat) (l : List Byte) (h : Memory.wf m) : Memory.wf (unwind base l m) := by
  induction l generalizing m with
  | nil => exact h
  | cons v rest ih => exact ih (write_wf _ v h)

/-- Any fold of writes keeps the canonical form. -/
theorem foldl_write_wf {α : Type} (l : List α) (addr : Memory → α → Nat) (val : Memory → α → Byte) {m : Memory}
    (h : Memory.wf m) : Memory.wf (l.foldl (fun n x => Memory.write n (addr n x) (val n x)) m) := by
  induction l generalizing m with
  | nil => exact h
  | cons x rest ih => exact ih (write_wf _ _ h)

theorem singlePass_wf (a b : Nat) (p : Bool) {s : State} (h : Memory.wf s.buf) : Memory.wf (singlePass a b p s) :=
  foldl_write_wf _ _ _ h

theorem microStep_wf (a b base resets : Nat) (x : MicroStep) {s : MicroState} (h : Memory.wf s.buf) :
    Memory.wf (microStep a b base resets x s).buf := by
  cases x with
  | read => exact h
  | write k => exact write_wf _ _ h

/-- A schedule of micro-steps keeps the canonical form (R116). -/
theorem foldl_microStep_wf (a b base resets : Nat) (sched : List MicroStep) {s : MicroState} (h : Memory.wf s.buf) :
    Memory.wf (sched.foldl (fun s x => microStep a b base resets x s) s).buf := by
  induction sched generalizing s with
  | nil => exact h
  | cons x rest ih => exact ih (microStep_wf a b base resets x h)

/-- Making bytes unspecified keeps the canonical form. -/
theorem unspecify_wf (l : List Nat) {s : State} (h : Memory.wf s.buf) : Memory.wf (unspecify l s).buf := by
  induction l generalizing s with
  | nil => exact h
  | cons a rest ih => exact ih (write_wf a _ h)

/-- Making bytes unspecified lists only their addresses anew. -/
theorem mem_unspecify {l : List Nat} {s : State} {c : Host.Cell} (h : c ∈ (unspecify l s).buf) :
    c.1 ∈ l ∨ c ∈ s.buf := by
  induction l generalizing s with
  | nil => exact .inr h
  | cons a rest ih =>
    rcases ih h with h | h
    · exact .inl (List.mem_cons_of_mem _ h)
    · rcases mem_write h with rfl | h
      · exact .inl (by simp)
      · exact .inr h

theorem readByte_unspecify {l : List Nat} {s : State} {x : Nat} (h : x ∉ l) :
    readByte (unspecify l s) x = readByte s x := by
  induction l generalizing s with
  | nil => rfl
  | cons a rest ih =>
    simp only [List.mem_cons, not_or] at h
    rw [unspecify, ih h.2]
    exact byteAt_write_ne _ _ _ h.1

@[simp] theorem mem_addresses (r : Region) (x : Nat) : x ∈ r.addresses ↔ r.base ≤ x ∧ x < r.base + r.len := by
  simp only [Region.addresses, List.mem_map, List.mem_range]
  constructor
  · rintro ⟨j, hj, rfl⟩; omega
  · intro h; exact ⟨x - r.base, by omega, by omega⟩

@[simp] theorem length_addresses (r : Region) : r.addresses.length = r.len := by simp [Region.addresses]

@[simp] theorem length_readSource (s : State) : (readSource s).length = s.srclen.toNat := by simp [readSource]

theorem getElem_readSource (s : State) {i : Nat} (h : i < (readSource s).length) :
    (readSource s)[i] = readByte s (s.srcaddr.toNat + i) := by simp [readSource]

theorem reset_wf : Memory.wf State.reset.buf := by simp [State.reset]

end Sys2Proof.Machine
end

