-- ==== Sys2Proof/Laws/Ops.lean ====
section
/-! SUPPORT. What each shared operation can do, once: the provers cite these instead of unfolding the operation. -/

namespace Sys2Proof.Machine

/-- A submitted word is ignored in phase ERR, raises ERR_BUSY while BUSY, and runs otherwise (R150). -/
theorem submit_cases (run : State → State) (s : State) :
    (s.err = true ∧ submit run s = s) ∨
    (s.err = false ∧ s.busy = true ∧ submit run s = raiseBusy [] s) ∨
    (s.err = false ∧ s.busy = false ∧ submit run s = run s) := by
  cases he : s.err <;> cases hb : s.busy <;> simp [submit, he, hb]

theorem dataCommand_host (w : Word) (f : State → State) {s : State} (h : s.agent = .host) :
    dataCommand w f s = .next (submit (latch w) s) := by simp [dataCommand, h]

theorem dataCommand_engine (w : Word) (f : State → State) {s : State} (h : s.agent = .engine) :
    dataCommand w f s = .next (f s) := by simp [dataCommand, h]

/-- A Complete step fails a check with BUF untouched, or finds a symbol out of range, or finishes. -/
theorem completeWith_cases (plan : Except ErrCode Region) (limit : Nat) (output : List Byte → List Byte) (s : State) :
    (∃ c, plan = .error c ∧ completeWith plan limit output s = raiseFault c [] s) ∨
    (∃ r, plan = .ok r ∧ (∃ x ∈ readSource s, limit ≤ x.toNat) ∧
      completeWith plan limit output s = raiseFault .symbol r.addresses s) ∨
    (∃ r, plan = .ok r ∧ (∀ x ∈ readSource s, x.toNat < limit) ∧
      completeWith plan limit output s = finish r (output (readSource s)) s) := by
  cases plan with
  | error c => exact .inl ⟨c, rfl, rfl⟩
  | ok r =>
    by_cases h : ∃ x ∈ readSource s, limit ≤ x.toNat
    · exact .inr (.inl ⟨r, rfl, h, by simpa [completeWith] using fun h' => absurd h (by simpa using h')⟩)
    · refine .inr (.inr ⟨r, rfl, by simpa using h, ?_⟩)
      have : (readSource s).any (fun x => decide (limit ≤ x.toNat)) = false := by simpa using h
      simp [completeWith, this]

/-- Every source symbol read is below a limit exactly when every source byte of BUF is (R165). -/
theorem readSource_below (limit : Nat) (s : State) :
    (∀ x ∈ readSource s, x.toNat < limit) ↔ sourceBelow limit s := by
  simp [readSource, sourceBelow]

theorem inBounds_iff (r : Region) (s : State) : r.inBounds s.bufSize = true ↔ fits r.base r.len s := by
  simp [Region.inBounds, fits]

/-- Where CONV's checks pass, the destination is its region, in BUF, and disjoint from the source (R94). -/
theorem convPlan_ok {a b : Nat} {s : State} {r : Region} (h : convPlan a b s = .ok r) :
    (1 ≤ a ∧ a ≤ 8 ∧ 1 ≤ b ∧ b ≤ 8) ∧ r = convRegion a b s ∧ fits s.srcaddr.toNat s.srclen.toNat s ∧
      fits r.base r.len s ∧ (sourceRegion s).overlaps r = false := by
  unfold convPlan at h
  split at h
  · cases h
  · split at h
    · cases h
    · split at h
      · cases h
      · rename_i hw hb ho
        obtain rfl : convRegion a b s = r := by injection h
        simp only [Bool.not_eq_eq_eq_not, Bool.not_true, Bool.not_eq_false, Bool.and_eq_true, inBounds_iff] at hw hb ho
        exact ⟨by simpa [widthsLegal] using hw, rfl, hb.1, hb.2, by simpa using ho⟩

/-- Where CONVIP's checks pass, the destination is its region, in BUF (R112). -/
theorem convipPlan_ok {a b : Nat} {p : Bool} {s : State} {r : Region} (h : convipPlan a b p s = .ok r) :
    (1 ≤ a ∧ a ≤ 8 ∧ 1 ≤ b ∧ b ≤ 8) ∧ r = convipRegion a b p s ∧ fits s.srcaddr.toNat s.srclen.toNat s ∧
      fits r.base r.len s := by
  unfold convipPlan at h
  split at h
  · cases h
  · split at h
    · cases h
    · rename_i hw hb
      obtain rfl : convipRegion a b p s = r := by injection h
      simp only [Bool.not_eq_eq_eq_not, Bool.not_true, Bool.not_eq_false, Bool.and_eq_true, inBounds_iff] at hw hb
      exact ⟨by simpa [widthsLegal] using hw, rfl, hb.1, hb.2⟩

/-- Where the alphabet check passes, the destination is the source region, in BUF (R135). -/
theorem alphabetPlan_ok {s : State} {r : Region} (h : alphabetPlan s = .ok r) :
    r = sourceRegion s ∧ fits r.base r.len s := by
  unfold alphabetPlan at h
  split at h
  · cases h
  · rename_i hb
    obtain rfl : sourceRegion s = r := by injection h
    simp only [Bool.not_eq_eq_eq_not, Bool.not_true, Bool.not_eq_false, inBounds_iff] at hb
    exact ⟨rfl, hb⟩

/-- AbortRegion never leaves BUF (R171). -/
theorem abortRegion_fits (s : State) : fits (abortRegion s).base (abortRegion s).len s := by
  have zero : fits 0 0 s := .inl rfl
  unfold abortRegion
  split
  · exact zero
  · rename_i i _
    split
    · exact zero
    · rename_i r h
      cases i <;> simp only [commandPlan] at h
      case nop | srst => injection h with h; subst h; exact zero
      case conv => exact (convPlan_ok h).2.2.2.1
      case convip => exact (convipPlan_ok h).2.2.2
      all_goals exact (alphabetPlan_ok h).2

@[simp] theorem length_convSymbols (a b : Nat) (p : Bool) (src : List Nat) :
    (convSymbols a b p src).length = outLen src.length a b p := by simp [convSymbols]

@[simp] theorem length_convBytes (a b : Nat) (p : Bool) (src : List Byte) :
    (convBytes a b p src).length = outLen src.length a b p := by simp [convBytes]

/-- What the engine does: nothing when idle, the command in CMDL when BUSY, and it has no step for a
word that is no command (R151). -/
theorem engineStep_cases (s : State) :
    (s.busy = false ∧ engineStep s = .next s) ∨
    (s.busy = true ∧ ∃ i, decode s.cmdl = .ok i ∧ engineStep s = exec i { s with agent := .engine }) ∨
    (s.busy = true ∧ ∃ e, decode s.cmdl = .error e ∧ engineStep s = .fault .noCompleteStep) := by
  cases hb : s.busy with
  | false => exact .inl ⟨rfl, by simp [engineStep, hb]⟩
  | true =>
    cases hd : decode s.cmdl with
    | error e => exact .inr (.inr ⟨rfl, e, rfl, by simp [engineStep, hb, hd]⟩)
    | ok i => exact .inr (.inl ⟨rfl, i, rfl, by simp [engineStep, hb, hd]⟩)

/-- A step takes the next entry of the script, or is the engine's when none is pending (R60). -/
theorem step_cases (s : State) :
    (s.script = [] ∧ step s = engineStep s) ∨
    (∃ e rest, s.script = e :: rest ∧ step s = runEvent e { s with script := rest, agent := .host }) := by
  cases h : s.script with
  | nil => exact .inl ⟨rfl, by simp [step, runMachine, h]⟩
  | cons e rest => exact .inr ⟨e, rest, rfl, by simp [step, runMachine, h]⟩

end Sys2Proof.Machine
end

