-- ==== Sys2Proof/Laws/PerInstr.lean ====
section
/-! SUPPORT. Statements for all commands, made one a constructor. RowSelected: the word of a well-formed command selects its own row of the opcode map (R75), so its opcode and its reserved bits are those of the row (R74). -/

namespace Sys2Proof.Laws.RowSelected

/-- The encoded word of a well-formed command matches its row. -/
def Statement (i : Instr) : Prop := i.wellFormed = true → i.row.selects (encode i) = true

theorem nop : Statement .nop := fun _ => rfl

theorem conv (a b : Nat) : Statement (.conv a b) := fun _ => by
  simp only [OpcodeRow.selects, Instr.row, encode, widthField]
  generalize BitVec.ofNat 4 a = x
  generalize BitVec.ofNat 4 b = y
  revert x y
  decide

theorem convip (a b : Nat) (p : Bool) : Statement (.convip a b p) := fun _ => by
  simp only [OpcodeRow.selects, Instr.row, encode, widthField]
  generalize BitVec.ofNat 4 a = x
  generalize BitVec.ofNat 4 b = y
  cases p <;> revert x y <;> decide

theorem n2p32 : Statement .n2p32 := fun _ => rfl

theorem p2n32 : Statement .p2n32 := fun _ => rfl

theorem n2p64 : Statement .n2p64 := fun _ => rfl

theorem p2n64 : Statement .p2n64 := fun _ => rfl

theorem srst : Statement .srst := fun _ => rfl

end Sys2Proof.Laws.RowSelected
end

