-- ==== Sys2Proof/Laws/Stream.lean ====
section
/-! SUPPORT. The hidden counters of the streaming algorithm: SRCIDX counts the symbols read and DSTIDX the symbols emitted (R32). -/

namespace Sys2Proof.Machine

@[simp] theorem absorb_srcidx (a : Nat) (x : Byte) (h : Hidden) : (absorb a x h).srcidx = h.srcidx + 1 := rfl
@[simp] theorem absorb_dstidx (a : Nat) (x : Byte) (h : Hidden) : (absorb a x h).dstidx = h.dstidx := rfl
@[simp] theorem absorb_pend (a : Nat) (x : Byte) (h : Hidden) : (absorb a x h).pend = h.pend := rfl
@[simp] theorem dropGroup_srcidx (b : Nat) (h : Hidden) : (dropGroup b h).srcidx = h.srcidx := rfl
@[simp] theorem dropGroup_dstidx (b : Nat) (h : Hidden) : (dropGroup b h).dstidx = h.dstidx + 1 := rfl
@[simp] theorem dropGroup_pend (b : Nat) (h : Hidden) : (dropGroup b h).pend = h.pend := rfl

/-- What every part of the algorithm does to the counters: `read` symbols were read and those of `out`
emitted; PEND is not used (R32, R33). -/
structure Counts (read : Nat) (out : List Byte) (h g : Hidden) : Prop where
  srcidx : g.srcidx = h.srcidx + BitVec.ofNat 20 read
  dstidx : g.dstidx = h.dstidx + BitVec.ofNat 20 out.length
  pend : g.pend = h.pend

theorem Counts.refl (h : Hidden) : Counts 0 [] h h := ⟨by simp, by simp, rfl⟩

theorem Counts.trans {m n : Nat} {out out' : List Byte} {h g k : Hidden}
    (c : Counts m out h g) (d : Counts n out' g k) : Counts (m + n) (out ++ out') h k :=
  ⟨by rw [d.srcidx, c.srcidx, BitVec.ofNat_add, BitVec.add_assoc],
   by rw [d.dstidx, c.dstidx, List.length_append, BitVec.ofNat_add, BitVec.add_assoc],
   d.pend.trans c.pend⟩

theorem absorb_counts (a : Nat) (x : Byte) (h : Hidden) : Counts 1 [] h (absorb a x h) := ⟨rfl, by simp, rfl⟩

theorem dropGroup_counts (b : Nat) (h : Hidden) : Counts 0 [lowGroup b h] h (dropGroup b h) := ⟨by simp, rfl, rfl⟩

theorem drain_counts (b fuel : Nat) (h : Hidden) : Counts 0 (drain b fuel h).1 h (drain b fuel h).2 := by
  induction fuel generalizing h with
  | zero => exact Counts.refl h
  | succ fuel ih =>
    unfold drain
    split
    · exact (dropGroup_counts b h).trans (ih (dropGroup b h))
    · exact Counts.refl h

theorem streamGroups_counts (a b : Nat) (src : List Byte) (h : Hidden) :
    Counts src.length (streamGroups a b src h).1 h (streamGroups a b src h).2 := by
  induction src generalizing h with
  | nil => exact Counts.refl h
  | cons x rest ih =>
    have c := ((absorb_counts a x h).trans (drain_counts b 15 _)).trans (ih (drain b 15 (absorb a x h)).2)
    simpa [streamGroups, Nat.add_comm 1] using c

theorem emitPartial_counts (b : Nat) (p : Bool) (h : Hidden) :
    Counts 0 (emitPartial b p h).1 h (emitPartial b p h).2 := by
  unfold emitPartial
  split
  · exact ⟨by simp, rfl, rfl⟩
  · exact Counts.refl h

/-- The whole algorithm: SRCIDX grows by the number of source symbols and DSTIDX by the number of
output symbols, the partial trailing symbol among them (R32). -/
theorem streamRun_counts (a b : Nat) (p : Bool) (src : List Byte) (h : Hidden) :
    Counts src.length (streamRun a b p src h).1 h (streamRun a b p src h).2 :=
  (streamGroups_counts a b src h).trans (emitPartial_counts b p _)

/-- From acceptance on, the counters end at the number of symbols read and emitted, where both fit 20
bits (R32). -/
theorem streamRun_cleared_counters (a b : Nat) (p : Bool) (src : List Byte)
    (hs : src.length < 2 ^ 20) (hd : (streamBytes a b p src).length < 2 ^ 20) :
    (streamRun a b p src Hidden.cleared).2.srcidx.toNat = src.length ∧
      (streamRun a b p src Hidden.cleared).2.dstidx.toNat = (streamBytes a b p src).length := by
  have c := streamRun_counts a b p src Hidden.cleared
  rw [c.srcidx, c.dstidx]
  have zero (k : Nat) (hk : k < 2 ^ 20) : (0 + BitVec.ofNat 20 k).toNat = k := by
    simpa using Nat.mod_eq_of_lt hk
  exact ⟨zero _ hs, zero _ hd⟩

end Sys2Proof.Machine
end

