-- ==== Sys2Proof/Tests/Slice0.lean ====
section
/-! SUPPORT. Tests: the checks of WellFormed, decoding of words written out from R75, single steps on the vectors of 95_test_vectors.md, and a witness for the hypotheses of each statement. -/

namespace Sys2Proof.Tests

open Sys2Proof.Machine

/-! ### WellFormed -/

theorem test_conv_source_width_16_refused : (Instr.conv 16 5).wellFormed = false := by decide
theorem test_conv_dest_width_16_refused : (Instr.conv 5 16).wellFormed = false := by decide
theorem test_convip_source_width_16_refused : (Instr.convip 16 5 true).wellFormed = false := by decide
theorem test_convip_dest_width_16_refused : (Instr.convip 5 16 true).wellFormed = false := by decide
theorem test_width_15_accepted : (Instr.convip 15 0 true).wellFormed = true := by decide
theorem test_buffer_address_64_refused : Event.addressExists 64 (.readBuf 64) = false := by decide
theorem test_buffer_write_address_64_refused : Event.addressExists 64 (.writeBuf 64 0) = false := by decide

/-! ### Decode: words written out bit by bit from the patterns of R75 -/

theorem test_decode_nop : decode 0b0000000000000000 = .ok .nop := by decide
/-- `0001ssssdddd0000` with S = 8, D = 5 (R94's example 0x1850). -/
theorem test_decode_conv : decode 0b0001100001010000 = .ok (.conv 8 5) := by decide
/-- `0010ssssddddp000` with S = 5, D = 8, P = 1 (R112's example 0x2588). -/
theorem test_decode_convip : decode 0b0010010110001000 = .ok (.convip 5 8 true) := by decide
theorem test_decode_n2p32 : decode 0b0100000000000000 = .ok .n2p32 := by decide
theorem test_decode_p2n32 : decode 0b0101000000000000 = .ok .p2n32 := by decide
theorem test_decode_n2p64 : decode 0b0110000000000000 = .ok .n2p64 := by decide
theorem test_decode_p2n64 : decode 0b0111000000000000 = .ok .p2n64 := by decide
theorem test_decode_srst : decode 0b1111000000000000 = .ok .srst := by decide
/-- A legal encoding with an illegal width, `CONV 8, 15` (F4). -/
theorem test_decode_conv_width_15 : decode 0x18F0 = .ok (.conv 8 15) := by decide
/-- The reserved opcodes (F1, F1b). -/
theorem test_decode_reserved_opcodes :
    ([0x3000, 0x8000, 0x9000, 0xA000, 0xB000, 0xC000, 0xD000, 0xE000] : List Word).all
      (fun w => decide (decode w = .error (.reservedOpcode (opField w)))) = true := by decide
/-- A reserved bit set in each assigned opcode (F2, F2b). -/
theorem test_decode_reserved_bits :
    ([0x1858, 0x0001, 0x2851, 0x4100, 0x5010, 0x6008, 0x7001, 0xF001] : List Word).all
      (fun w => decide (decode w = .error .reservedBits)) = true := by decide
theorem test_decode_table_word : decodeTableWord 16 0x2858 = some (.convip 8 5 true) := by decide

/-! ### Single steps -/

/-- The next state of an outcome. -/
def nextOf (o : Host.Outcome State Fault Refusal) : Option State :=
  match o with
  | .next t => some t
  | .fault _ => none
  | .refused _ => none

/-- A small state: BUF of 64 bytes holding `bytes` from address 0, the operand registers set. -/
def small (src n dst : Word) (bytes : List Byte) : State :=
  { State.reset with
    lastAddr := 63, srcaddr := src, srclen := n, dstaddr := dst, buf := Memory.writeBytes [] 0 bytes }

/-- The same with a running command and the engine's turn. -/
def running (w src n dst : Word) (bytes : List Byte) : State :=
  { small src n dst bytes with cmdl := w, status := 0x0001, agent := .engine }

/-- The bytes at the first k addresses of an outcome's next state. -/
def bytesOf (o : Host.Outcome State Fault Refusal) (k : Nat) : Option (List Byte) :=
  (nextOf o).map (fun t => (List.range k).map (readByte t))

/-- STATUS and DSTLEN of an outcome's next state. -/
def resultOf (o : Host.Outcome State Fault Refusal) : Option (Word × Word) :=
  (nextOf o).map (fun t => (t.status, t.dstlen))

/-- V5 and K3: `12 34 56 78 9A` from 8 to 5 bits, the destination adjacent to the source. -/
theorem test_conv_bytes :
    bytesOf (exec (.conv 8 5) (running 0x1850 0 5 5 [0x12, 0x34, 0x56, 0x78, 0x9A])) 13 =
      some [0x12, 0x34, 0x56, 0x78, 0x9A, 0x12, 0x00, 0x0D, 0x0C, 0x05, 0x1C, 0x09, 0x13] := by decide
/-- F6: an overlap at address 4, found before any symbol is read. -/
theorem test_conv_overlap : resultOf (exec (.conv 8 5) (running 0x1850 0 5 4 [])) = some (0x0044, 0) := by decide
/-- I6: a contraction keeps its stale tail. -/
theorem test_convip_stale_tail :
    bytesOf (exec (.convip 5 8 false)
      (running 0x2580 0 8 0 [0x12, 0x00, 0x0D, 0x0C, 0x05, 0x1C, 0x09, 0x13, 0xC3])) 9 =
      some [0x12, 0x34, 0x56, 0x78, 0x9A, 0x1C, 0x09, 0x13, 0xC3] := by decide
/-- I10: an expansion with P = 0 still emits every full group. -/
theorem test_convip_expansion_without_partial :
    bytesOf (exec (.convip 7 3 false) (running 0x2730 0 2 0 [0x7F, 0x01, 0xEE, 0xEE, 0xEE])) 5 =
      some [0x07, 0x07, 0x03, 0x00, 0xEE] := by decide
/-- F7: 0x20 is no 5-bit symbol; byte 1 is outside the destination and keeps its value. -/
theorem test_convip_symbol_fault :
    (nextOf (exec (.convip 5 8 false) (running 0x2580 0 2 0 [0x1F, 0x20]))).map
      (fun t => (t.status, t.dstlen, readByte t 1)) = some (0x0054, 0, 0x20) := by decide
/-- A1. -/
theorem test_n2p32_corners :
    bytesOf (exec .n2p32 (running 0x4000 0 4 0 [0x00, 0x19, 0x1A, 0x1F])) 4 =
      some [0x61, 0x7A, 0x32, 0x37] := by decide
/-- A9: 32 is out of range. -/
theorem test_n2p32_symbol_fault :
    resultOf (exec .n2p32 (running 0x4000 0 2 0 [0x00, 0x20])) = some (0x0054, 0) := by decide
/-- A3: uppercase and `!` give 0. -/
theorem test_p2n32_foreign :
    bytesOf (exec .p2n32 (running 0x5000 0 4 0 [0x41, 0x62, 0x21, 0x37])) 4 =
      some [0x00, 0x01, 0x00, 0x1F] := by decide +kernel
/-- A5. -/
theorem test_n2p64_ranges :
    bytesOf (exec .n2p64 (running 0x6000 0 8 0 [0x00, 0x01, 0x02, 0x0B, 0x0C, 0x25, 0x26, 0x3F])) 8 =
      some [0x2C, 0x2D, 0x30, 0x39, 0x41, 0x5A, 0x61, 0x7A] := by decide
/-- A7. -/
theorem test_p2n64_foreign :
    bytesOf (exec .p2n64 (running 0x7000 0 7 0 [0x2C, 0x2E, 0x2F, 0x30, 0x5A, 0x7A, 0x7B])) 7 =
      some [0x00, 0x00, 0x00, 0x02, 0x25, 0x3F, 0x00] := by decide +kernel
/-- N1. -/
theorem test_nop_keeps_done :
    resultOf (exec .nop { State.reset with status := 0x0002, dstlen := 8 }) = some (0x0002, 8) := by decide
/-- N4: NOP while BUSY raises ERR_BUSY. -/
theorem test_nop_while_busy :
    resultOf (exec .nop { running 0x2858 0 2 0 [] with agent := .host }) = some (0x0064, 0) := by decide
/-- N5. -/
theorem test_srst_clears :
    resultOf (exec .srst { State.reset with status := 0x0054, srclen := 2, dstlen := 4, cmdl := 0x2580 }) =
      some (0x0000, 0) := by decide
/-- N8: the bytes outside AbortRegion (0, 4) survive the abort. -/
theorem test_srst_aborts :
    (nextOf (exec .srst { running 0x2858 0 2 0 [1, 2, 3, 4, 5] with agent := .host })).map
      (fun t => (t.status, readByte t 4, t.freeCount)) = some (0x0000, 5, 4) := by decide
/-- F6b: ERR_WIDTH wins over ERR_BOUNDS and ERR_OVERLAP. -/
theorem test_width_first : resultOf (exec (.conv 0 5) (running 0x1050 0x3F 5 0x3F [])) = some (0x0024, 0) := by decide
/-- F5: an expansion past the end of a BUF of 64 bytes. -/
theorem test_bounds : resultOf (exec (.convip 8 5 true) (running 0x2858 60 4 0 [])) = some (0x0034, 0) := by decide
/-- N7: an illegal word written to CMD from IDLE. -/
theorem test_illegal_word_step : resultOf (step (State.reset.withFetchWord 16 0xF008)) = some (0x0014, 0) := by decide
/-- N9: acceptance, as the first step after reset. -/
theorem test_first_step_accepts :
    (nextOf (step (State.reset.withFetchWord 16 0x2858))).map (fun t => (t.status, t.cmdl)) =
      some (0x0001, 0x2858) := by decide
/-- The register numbers of R21. -/
theorem test_register_numbers :
    [Reg.cmd, .status, .srcaddr, .srclen, .dstaddr, .dstlen].map Reg.number = [0, 1, 2, 3, 4, 5] := by decide
/-- R80: the hand-over of DSTLEN to SRCLEN in ENCODE32. -/
theorem test_encode32_script :
    scriptEvents (encode32 0 18 0 0) =
      [.writeReg .srcaddr (.lit 0), .writeReg .srclen (.lit 18), .writeReg .cmd (.lit 0x2858), .wait 0,
       .readReg .dstlen, .writeReg .srclen .answer, .writeReg .cmd (.lit 0x4000), .wait 0] := by decide

/-- V1 through the streaming algorithm: one symbol read, two emitted, the partial one counted (R32). -/
theorem test_stream_counts_partial :
    (streamRun 8 5 true [0xFF] Hidden.cleared).1 = [0x1F, 0x07] ∧
      (streamRun 8 5 true [0xFF] Hidden.cleared).2.srcidx = 1 ∧
      (streamRun 8 5 true [0xFF] Hidden.cleared).2.dstidx = 2 := by decide

/-! ### Witnesses: a concrete state and operands that meet the hypotheses of each statement, clause by clause -/

/-- A state with one entry pending. -/
def pending (e : Event) : State := { small 0 2 8 [1, 2] with script := [e] }

/-- A state with a running `CONVIP 8, 5, 1` on (0, 2) and one entry pending. -/
def busyPending (e : Event) : State := { running 0x2858 0 2 0 [0xFF, 0xEE] with agent := .host, script := [e] }

theorem witness_DecodeInvertsEncode : (Instr.conv 0 15).wellFormed = true ∧ (Instr.convip 15 0 true).wellFormed = true := by
  decide
theorem witness_EncodeInvertsDecode : decode 0x18F0 = .ok (.conv 8 15) := by decide
theorem witness_DecodeFollowsOpcodeMap :
    decode 0x2FF8 = .ok (.convip 15 15 true) ∧ Instr.row (.convip 0 0 false) ∈ opcodeMap ∧
      (Instr.row (.convip 0 0 false)).selects 0x2FF8 = true := by decide
theorem witness_OpcodeRowsDisjoint : Instr.row .srst ∈ opcodeMap ∧ (Instr.row .srst).selects 0xF000 = true := by decide
theorem witness_HardwareResetClears : (pending .hardwareReset).script = .hardwareReset :: [] := rfl
theorem witness_StepSubmitsCommand :
    (pending (.writeReg .cmd (.lit 0x1850))).script = .writeReg .cmd (.lit 0x1850) :: [] ∧
      decode (valueOf (.lit 0x1850) (pending (.writeReg .cmd (.lit 0x1850)))) = .ok (.conv 8 5) :=
  ⟨rfl, by decide⟩
theorem witness_StepCompletesCommand :
    (busyPending .complete).busy = true ∧ decode (busyPending .complete).cmdl = .ok (.convip 8 5 true) ∧
      (busyPending .complete).script = .complete :: [] ∧ (busyPending (.wait 0)).script = .wait 0 :: [] ∧
      (running 0x2858 0 2 0 []).script = [] ∧ (running 0x2858 0 2 0 []).busy = true := by decide
theorem witness_IllegalWordFaults :
    legalWord (valueOf (.lit 0x1858) (pending (.writeReg .cmd (.lit 0x1858)))) = false ∧
      (pending (.writeReg .cmd (.lit 0x1858))).err = false ∧
      (pending (.writeReg .cmd (.lit 0x1858))).busy = false := by decide
theorem witness_IllegalWordInErrAndBusy :
    legalWord (valueOf (.lit 0x3000) (busyPending (.writeReg .cmd (.lit 0x3000)))) = false ∧
      (busyPending (.writeReg .cmd (.lit 0x3000))).err = false ∧
      (busyPending (.writeReg .cmd (.lit 0x3000))).busy = true ∧
      ({ pending (.writeReg .cmd (.lit 0x3000)) with status := 0x0014 } : State).err = true := by decide
theorem witness_IdleEngineDoesNothing :
    (small 0 0 0 []).busy = false ∧ (small 0 0 0 []).script = [] ∧ (pending .complete).busy = false ∧
      (pending .complete).script = .complete :: [] := by decide
theorem witness_DataCommandAccepted :
    (Instr.conv 0 15).isData = true ∧ (small 0 2 8 []).agent = .host ∧ (small 0 2 8 []).err = false ∧
      (small 0 2 8 []).busy = false := by decide
theorem witness_CommandIgnoredInErr :
    Instr.nop ≠ .srst ∧ ({ small 0 2 8 [] with status := 0x0054 } : State).agent = .host ∧
      ({ small 0 2 8 [] with status := 0x0054 } : State).err = true := by decide
theorem witness_CommandWhileBusyAborts :
    Instr.conv 8 5 ≠ .srst ∧ (busyPending .complete).agent = .host ∧ (busyPending .complete).err = false ∧
      (busyPending .complete).busy = true ∧ abortRegion (busyPending .complete) = ⟨0, 4⟩ := by decide
theorem witness_NopChangesNothing : (small 0 2 8 []).agent = .host ∧ (small 0 2 8 []).busy = false := by decide
theorem witness_SrstClearsRegisters : (busyPending .complete).agent = .host ∧ (small 0 2 8 []).busy = false := by decide

/-- Checks that pass and checks that fail, for each kind of command; 57 + 7 = 64 fits exactly. -/
theorem witness_AbortRegionIsDestination :
    (running 0x1850 0 4 57 []).cmdl = encode (.conv 8 5) ∧ abortRegion (running 0x1850 0 4 57 []) = ⟨57, 7⟩ ∧
    abortRegion (running 0x1850 0 4 58 []) = ⟨0, 0⟩ ∧ abortRegion (running 0x1050 0 4 8 []) = ⟨0, 0⟩ ∧
    (running 0x2858 57 4 0 []).cmdl = encode (.convip 8 5 true) ∧
    abortRegion (running 0x2858 57 4 0 []) = ⟨57, 7⟩ ∧ abortRegion (running 0x2858 58 4 0 []) = ⟨0, 0⟩ ∧
    (running 0x4000 60 4 0 []).cmdl = encode .n2p32 ∧ abortRegion (running 0x4000 60 4 0 []) = ⟨60, 4⟩ ∧
    abortRegion (running 0x4000 60 5 0 []) = ⟨0, 0⟩ := by decide

/-- The destination ends exactly at BUF_SIZE = 64. -/
theorem witness_ConvCompletes :
    let s := running 0x1580 0 2 62 [0x1F, 0x07]
    s.agent = .engine ∧ fits s.srcaddr.toNat s.srclen.toNat s ∧
      fits s.dstaddr.toNat (outLen s.srclen.toNat 5 8 true) s ∧
      (sourceRegion s).overlaps (convRegion 5 8 s) = false ∧ sourceBelow (2 ^ 5) s :=
  ⟨rfl, .inr (by decide), .inr (by decide), by decide, by unfold sourceBelow; decide⟩
theorem witness_ConvipCompletes :
    let s := running 0x2588 0 2 0 [0x1F, 0x07]
    s.agent = .engine ∧ fits s.srcaddr.toNat s.srclen.toNat s ∧
      fits s.srcaddr.toNat (outLen s.srclen.toNat 5 8 true) s ∧ sourceBelow (2 ^ 5) s :=
  ⟨rfl, .inr (by decide), .inr (by decide), by unfold sourceBelow; decide⟩
theorem witness_N2p32Completes :
    let s := running 0x4000 0 2 0 [0x1F, 0x00]
    s.agent = .engine ∧ fits s.srcaddr.toNat s.srclen.toNat s ∧ sourceBelow 32 s :=
  ⟨rfl, .inr (by decide), by unfold sourceBelow; decide⟩
theorem witness_P2n32Completes :
    let s := running 0x5000 0 64 0 []
    s.agent = .engine ∧ fits s.srcaddr.toNat s.srclen.toNat s := ⟨rfl, .inr (by decide)⟩
theorem witness_N2p64Completes :
    let s := running 0x6000 0 2 0 [0x3F, 0x20]
    s.agent = .engine ∧ fits s.srcaddr.toNat s.srclen.toNat s ∧ sourceBelow 64 s :=
  ⟨rfl, .inr (by decide), by unfold sourceBelow; decide⟩
theorem witness_P2n64Completes :
    let s := running 0x7000 60 4 0 []
    s.agent = .engine ∧ fits s.srcaddr.toNat s.srclen.toNat s := ⟨rfl, .inr (by decide)⟩
theorem witness_EmptySourceCompletes :
    (running 0x1850 0xFFFF 0 0xFFFF []).agent = .engine ∧ (running 0x1850 0xFFFF 0 0xFFFF []).srclen = 0 ∧
      Instr.n2p64 ∈ [Instr.n2p32, .p2n32, .n2p64, .p2n64] := by decide
theorem witness_WidthFaultComesFirst :
    (running 0x2958 0 1 0 []).agent = .engine ∧ ¬(1 ≤ 9 ∧ 9 ≤ 8 ∧ 1 ≤ 5 ∧ 5 ≤ 8) ∧ ¬(1 ≤ 8 ∧ 8 ≤ 8 ∧ 1 ≤ 0 ∧ 0 ≤ 8) := by decide

/-- Each clause of BoundsFaultBeforeAccess one byte past the end (F5, F5b). -/
theorem witness_BoundsFaultBeforeAccess :
    ¬(fits 0 4 (running 0x1850 0 4 58 []) ∧ fits 58 (outLen 4 8 5 true) (running 0x1850 0 4 58 [])) ∧
    ¬(fits 58 4 (running 0x2858 58 4 0 []) ∧ fits 58 (outLen 4 8 5 true) (running 0x2858 58 4 0 [])) ∧
    ¬fits 60 5 (running 0x4000 60 5 0 []) := by unfold fits; decide
theorem witness_OverlapFaultBeforeAccess :
    let s := running 0x1850 0 5 4 []
    fits s.srcaddr.toNat s.srclen.toNat s ∧ fits s.dstaddr.toNat (outLen s.srclen.toNat 8 5 true) s ∧
      (s.srcaddr.toNat ≤ 4 ∧ 4 < s.srcaddr.toNat + s.srclen.toNat) ∧
      (s.dstaddr.toNat ≤ 4 ∧ 4 < s.dstaddr.toNat + outLen s.srclen.toNat 8 5 true) := by
  unfold fits; decide
theorem witness_SymbolFaultSpoilsDestination :
    let s := running 0x1580 0 2 8 [0x1F, 0x40]
    s.agent = .engine ∧ fits s.srcaddr.toNat s.srclen.toNat s ∧
      fits s.dstaddr.toNat (outLen s.srclen.toNat 5 8 true) s ∧
      fits s.srcaddr.toNat (outLen s.srclen.toNat 5 8 true) s ∧
      (sourceRegion s).overlaps (convRegion 5 8 s) = false ∧
      ¬sourceBelow (2 ^ 5) s ∧ ¬sourceBelow 32 s ∧ ¬sourceBelow 64 s := by
  unfold fits sourceBelow; decide
theorem witness_FrameRule :
    (∃ t, exec (.conv 5 8) (running 0x1580 0 2 2 [0x1F, 0x07]) = .next t ∧ t.err = false) ∧
    (∃ t, exec (.convip 5 8 false) (running 0x2580 0 2 0 [0x1F, 0x07]) = .next t ∧ t.err = false) ∧
    (∃ t, exec .n2p32 (running 0x4000 0 2 0 [0x1F, 0x07]) = .next t ∧ t.err = false) :=
  ⟨⟨_, rfl, by decide⟩, ⟨_, rfl, by decide⟩, ⟨_, rfl, by decide⟩⟩
theorem witness_OutputCount : 18 * 8 % 5 ≠ 0 ∧ 5 * 8 % 5 = 0 ∧ outLen 18 8 5 true = 29 := by decide
/-- For PartialSymbolHoldsLeftover and RoundTrip (V19). -/
theorem witness_symbols_below : (∀ x ∈ ([7, 0, 5, 2, 1] : List Nat), x < 2 ^ 3) ∧ 5 * 3 % 7 ≠ 0 ∧ 5 * 3 % 5 = 0 := by
  decide
/-- For EqualWidthsIdentity, StreamingEqualsConv and WindowNeverOverflows. -/
theorem witness_bytes_below : (∀ x ∈ ([0x1F, 0x07] : List Byte), x.toNat < 2 ^ 5) ∧ (0x1F : Byte).toNat < 2 ^ 5 := by
  decide
theorem witness_ConvipMatchesConv :
    let s := running 0x1580 0 2 2 [0x1F, 0x07]
    s.agent = .engine ∧ (∃ t, exec (.conv 5 8) s = .next t ∧ t.err = false) ∧
      (∃ u, exec (.convip 5 8 false) s = .next u ∧ u.err = false) :=
  ⟨rfl, ⟨_, rfl, by decide⟩, ⟨_, rfl, by decide⟩⟩

/-- A schedule under the hazard rule for I2: both symbols are read, then written in descending order. -/
theorem witness_HazardScheduleAgrees :
    scheduleAllowed 5 8 2 (outLen 2 5 8 true) 0 [.read, .read, .write 1, .write 0] = true ∧
      (∀ k, k < outLen 2 5 8 true → MicroStep.write k ∈ [MicroStep.read, .read, .write 1, .write 0]) ∧
      (∃ t, exec (.convip 5 8 true) (running 0x2588 0 2 0 [0x1F, 0x07]) = .next t ∧ t.err = false) :=
  ⟨by decide, by decide, ⟨_, rfl, by decide⟩⟩
/-- An expansion (I3) and a contraction (I1). -/
theorem witness_RecursiveStrategyAgrees :
    (let s := running 0x2858 0 1 0 [0xFF]
     s.agent = .engine ∧ ∃ t, exec (.convip 8 5 true) s = .next t ∧ t.err = false) ∧
    (let s := running 0x2580 0 2 0 [0x1F, 0x07]
     s.agent = .engine ∧ ∃ t, exec (.convip 5 8 false) s = .next t ∧ t.err = false) :=
  ⟨⟨rfl, _, rfl, by decide⟩, rfl, _, rfl, by decide⟩

/-- The ascending order (I1, b >= a) and the descending order (I3, b < a). -/
theorem witness_SinglePassAgrees :
    (let s := running 0x2580 0 2 0 [0x1F, 0x07]
     s.agent = .engine ∧ ∃ t, exec (.convip 5 8 false) s = .next t ∧ t.err = false) ∧
    (let s := running 0x2858 0 1 0 [0xFF]
     s.agent = .engine ∧ ∃ t, exec (.convip 8 5 true) s = .next t ∧ t.err = false) :=
  ⟨⟨rfl, _, rfl, by decide⟩, rfl, _, rfl, by decide⟩
theorem witness_LostBytesAreFree : 3 < (⟨4, 4⟩ : Region).len := by decide
theorem witness_TableLaws : (31 : Byte).toNat < 32 ∧ (63 : Byte).toNat < 64 := by decide
theorem witness_ReadRegReturnsRegister : (pending (.readReg .status)).script = .readReg .status :: [] := rfl
theorem witness_OperandWriteStores :
    (pending (.writeReg .srclen .answer)).busy = false ∧
      (pending (.writeReg .srclen .answer)).script = .writeReg .srclen .answer :: [] := by decide
theorem witness_OperandWriteWhileBusyFaults :
    Reg.dstaddr ∈ [Reg.srcaddr, .srclen, .dstaddr] ∧ (busyPending (.writeReg .dstaddr (.lit 7))).busy = true ∧
      (busyPending (.writeReg .dstaddr (.lit 7))).err = false ∧
      (busyPending (.writeReg .dstaddr (.lit 7))).script = .writeReg .dstaddr (.lit 7) :: [] := by decide
theorem witness_ReadOnlyWritesIgnored :
    Reg.status ∈ [Reg.status, .dstlen] ∧
      (busyPending (.writeReg .status (.lit 0xFFFF))).script = .writeReg .status (.lit 0xFFFF) :: [] := by decide
theorem witness_BufferAccessWhenFree :
    (pending (.readBuf 63)).busy = false ∧ 63 < (pending (.readBuf 63)).bufSize ∧
      (pending (.writeBuf 63 9)).script = .writeBuf 63 9 :: [] := by decide
theorem witness_BufferAccessWhileBusyFaults :
    (busyPending (.writeBuf 6 0x11)).busy = true ∧ (busyPending (.writeBuf 6 0x11)).err = false ∧
      6 < (busyPending (.writeBuf 6 0x11)).bufSize ∧ (busyPending (.readBuf 0)).script = .readBuf 0 :: [] := by decide
theorem witness_AbsentAddressStops :
    (pending (.readBuf 64)).bufSize ≤ 64 ∧ (pending (.readBuf 64)).script = .readBuf 64 :: [] ∧
      (pending (.writeBuf 64 1)).script = .writeBuf 64 1 :: [] := by decide

/-- A busy state of the invariant. -/
theorem witness_busy_invariant (e : Event) : (busyPending e).Inv :=
  ⟨by show Memory.wf ([(0, 0xFF), (1, 0xEE)] : Memory); decide, by show ∀ c ∈ ([(0, 0xFF), (1, 0xEE)] : Memory), c.1 < 64; decide,
    by show (0x0001 : Word) ∈ statusWords; decide, .inr (by show holdsDataCommand 0x2858 = true; decide),
    fun _ => by show holdsDataCommand 0x2858 = true; decide, by show (0 : Word).toNat ≤ 64; decide, rfl⟩
theorem witness_StepKeepsInvariant :
    (busyPending .complete).Inv ∧ ∃ t, step (busyPending .complete) = .next t ∧ t.phase = .done :=
  ⟨witness_busy_invariant _, _, rfl, by decide⟩
/-- Each kind of transition but the faults' is taken somewhere. -/
theorem witness_PhaseTransitions :
    (∃ t, step (busyPending .complete) = .next t ∧ t.phase = .done) ∧
    (∃ t, step (busyPending (.readBuf 0)) = .next t ∧ t.phase = .err) ∧
    (∃ t, step (busyPending (.writeReg .cmd (.lit 0xF000))) = .next t ∧ t.phase = .idle) ∧
    (∃ t, step (pending (.writeReg .cmd (.lit 0x2858))) = .next t ∧ t.phase = .busy) :=
  ⟨⟨_, rfl, by decide⟩, ⟨_, rfl, by decide⟩, ⟨_, rfl, by decide⟩, ⟨_, rfl, by decide⟩⟩
theorem witness_BufSizeNeverChanges : ∃ t, step (pending .hardwareReset) = .next t := ⟨_, rfl⟩
theorem witness_HiddenStateHasNoInfluence : ∃ t, step (pending (.writeReg .cmd (.lit 0x2858))) = .next t := ⟨_, rfl⟩
theorem witness_ErrIsSticky :
    let s : State := { pending (.writeReg .cmd (.lit 0xF008)) with status := 0x0054 }
    s.err = true ∧ (∃ t, step s = .next t) ∧ ¬s.resetsNext :=
  ⟨by decide, ⟨_, rfl⟩, by
    rintro (h | ⟨v, h, hv⟩)
    · exact absurd h (by decide)
    · obtain rfl : v = .lit 0xF008 := by
        injection h with h; injection h with _ h; exact h.symm
      exact absurd hv (by decide)⟩
theorem witness_EngineKeepsOperandRegisters :
    (busyPending .complete).engineNext ∧ ∃ t, step (busyPending .complete) = .next t :=
  ⟨.inr (.inl rfl), _, rfl⟩
theorem witness_WaitEndsCommand :
    (busyPending (.wait 3)).Inv ∧ (busyPending (.wait 3)).busy = true ∧
      (busyPending (.wait 3)).script = .wait 3 :: [] :=
  ⟨witness_busy_invariant _, by decide, rfl⟩
theorem witness_RunNeverStops :
    (busyPending (.writeBuf 63 1)).Inv ∧ (busyPending (.writeBuf 63 1)).scriptExists = true :=
  ⟨witness_busy_invariant _, by decide⟩

end Sys2Proof.Tests
end

section
/-! PROOFS. What one step can do, said once: it takes an entry off the script, passes the turn, and makes one
update of the state (`step_updatesTo`). That BUF_SIZE is never changed (R7) follows from each update keeping it. -/

namespace Sys2Proof.Machine

/-! ### The updates a step can make -/

/-- One update of the state, with the guard under which a step makes it. -/
inductive Update (s : State) : State → Prop
  /-- Nothing happens: a write that is ignored, NOP, an idle engine (R51, R152, R155, R172). -/
  | same : Update s s
  /-- A register is read (R50). -/
  | readReg (r : Reg) : Update s (hostReadReg r s)
  /-- A byte of BUF is read (R52). -/
  | readBuf {addr : Nat} (idle : s.busy = false) (addrExists : addr < s.bufSize) :
      Update s { s with answer := (readByte s addr).setWidth 16 }
  /-- A byte of BUF is read while BUSY: ERR_BUSY and an unspecified answer (R52, R166). -/
  | readBufBusy (running : s.busy = true) :
      Update s { raiseBusy [] s with
        answer := (Config.freeByte (raiseBusy [] s).freeCount).setWidth 16,
        freeCount := (raiseBusy [] s).freeCount + 1 }
  /-- A byte of BUF is written (R53). -/
  | writeBuf {addr : Nat} (v : Byte) (idle : s.busy = false) (addrExists : addr < s.bufSize) :
      Update s (writeByte addr v s)
  /-- SRCADDR is written (R51). -/
  | setSrcaddr (w : Word) (idle : s.busy = false) : Update s { s with srcaddr := w }
  /-- SRCLEN is written (R51). -/
  | setSrclen (w : Word) (idle : s.busy = false) : Update s { s with srclen := w }
  /-- DSTADDR is written (R51). -/
  | setDstaddr (w : Word) (idle : s.busy = false) : Update s { s with dstaddr := w }
  /-- A data command is accepted (R150). -/
  | accept {i : Instr} (data : i.isData = true) (noErr : s.err = false) (idle : s.busy = false) :
      Update s (latch (encode i) s)
  /-- A fault is raised; the bytes it loses exist (R170, R171). -/
  | fault (c : ErrCode) {lost : List Nat} (exist : ∀ a ∈ lost, a < s.bufSize) : Update s (raiseFault c lost s)
  /-- A command completes: the output fills its destination, which lies in BUF (R94, R112, R135). -/
  | complete {r : Region} {out : List Byte} (running : s.busy = true) (inBuf : fits r.base r.len s)
      (fills : out.length = r.len) : Update s (finish r out s)
  /-- SRST (R153). -/
  | softReset : Update s (softReset s)
  /-- A hardware reset (R190). -/
  | hardwareReset : Update s (hardwareReset s)

/-! ### Each operation is one update -/

theorem lt_bufSize_of_mem_addresses {r : Region} {s : State} (h : fits r.base r.len s) :
    ∀ a ∈ r.addresses, a < s.bufSize := by
  intro a ha
  rw [mem_addresses] at ha
  unfold fits at h
  omega

theorem raiseBusy_update {touched : List Nat} {s : State} (h : ∀ a ∈ touched, a < s.bufSize) :
    Update s (raiseBusy touched s) := by
  refine .fault .busy fun a ha => ?_
  rcases List.mem_append.mp ha with habort | htouched
  · exact lt_bufSize_of_mem_addresses (abortRegion_fits s) a habort
  · exact h a htouched

theorem submit_update {run : State → State} {s : State}
    (hrun : s.err = false → s.busy = false → Update s (run s)) : Update s (submit run s) := by
  obtain ⟨-, h⟩ | ⟨-, -, h⟩ | ⟨he, hb, h⟩ := submit_cases run s
  · rw [h]; exact .same
  · rw [h]; exact raiseBusy_update (by simp)
  · rw [h]; exact hrun he hb

/-- A Complete step is one update where its plan gives a destination in BUF that the output fills. -/
theorem completeWith_update {plan : Except ErrCode Region} {output : List Byte → List Byte} {s : State}
    (limit : Nat) (hb : s.busy = true)
    (hplan : ∀ r, plan = .ok r → fits r.base r.len s ∧ (output (readSource s)).length = r.len) :
    Update s (completeWith plan limit output s) := by
  obtain ⟨c, -, h⟩ | ⟨r, hr, -, h⟩ | ⟨r, hr, -, h⟩ := completeWith_cases plan limit output s
  · rw [h]; exact .fault c (by simp)
  · rw [h]; exact .fault .symbol (lt_bufSize_of_mem_addresses (hplan r hr).1)
  · rw [h]; exact .complete hb (hplan r hr).1 (hplan r hr).2

theorem convComplete_update (a b : Nat) {s : State} (hb : s.busy = true) : Update s (convComplete a b s) := by
  refine completeWith_update _ hb fun r hr => ?_
  obtain ⟨-, rfl, -, hfits, -⟩ := convPlan_ok hr
  exact ⟨hfits, by simp [convRegion]⟩

theorem convipComplete_update (a b : Nat) (p : Bool) {s : State} (hb : s.busy = true) :
    Update s (convipComplete a b p s) := by
  refine completeWith_update _ hb fun r hr => ?_
  obtain ⟨-, rfl, -, hfits⟩ := convipPlan_ok hr
  exact ⟨hfits, by simp [convipRegion]⟩

theorem translateComplete_update (table : List Byte) {s : State} (hb : s.busy = true) :
    Update s (translateComplete table s) := by
  refine completeWith_update _ hb fun r hr => ?_
  obtain ⟨rfl, hfits⟩ := alphabetPlan_ok hr
  exact ⟨hfits, by simp [sourceRegion]⟩

/-! ### Each agent's turn is one update -/

/-- A data command on either turn; the engine's turn comes only while BUSY (R151). -/
theorem dataCommand_update {i : Instr} {f : State → State} {s t : State} (hi : i.isData = true)
    (hengine : s.agent = .engine → s.busy = true) (hf : s.busy = true → Update s (f s))
    (h : dataCommand (encode i) f s = .next t) : Update s t := by
  cases ha : s.agent with
  | host =>
    rw [dataCommand_host _ _ ha] at h
    injection h with h
    exact h ▸ submit_update fun he hb => .accept hi he hb
  | engine =>
    rw [dataCommand_engine _ _ ha] at h
    injection h with h
    exact h ▸ hf (hengine ha)

theorem execNop_update {s t : State} (h : execNop s = .next t) : Update s t := by
  unfold execNop at h
  split at h
  · injection h with h
    exact h ▸ submit_update fun _ _ => .same
  · cases h

theorem execSrst_update {s t : State} (h : execSrst s = .next t) : Update s t := by
  unfold execSrst at h
  split at h
  · injection h with h
    exact h ▸ .softReset
  · cases h

theorem exec_update {i : Instr} {s t : State} (hengine : s.agent = .engine → s.busy = true)
    (h : exec i s = .next t) : Update s t := by
  cases i with
  | nop => exact execNop_update h
  | conv a b => exact dataCommand_update rfl hengine (convComplete_update a b) h
  | convip a b p => exact dataCommand_update rfl hengine (convipComplete_update a b p) h
  | n2p32 => exact dataCommand_update (i := .n2p32) rfl hengine (translateComplete_update tableN2P32) h
  | p2n32 => exact dataCommand_update (i := .p2n32) rfl hengine (translateComplete_update tableP2N32) h
  | n2p64 => exact dataCommand_update (i := .n2p64) rfl hengine (translateComplete_update tableN2P64) h
  | p2n64 => exact dataCommand_update (i := .p2n64) rfl hengine (translateComplete_update tableP2N64) h
  | srst => exact execSrst_update h

theorem submitWord_update {w : Word} {s t : State} (hhost : s.agent = .host)
    (h : submitWord w s = .next t) : Update s t := by
  unfold submitWord at h
  split at h
  · exact exec_update (by simp [hhost]) h
  · injection h with h
    exact h ▸ submit_update fun _ _ => .fault .illegal (by simp)

theorem hostWriteOperand_update {store : State → State} {s : State}
    (hstore : s.busy = false → Update s (store s)) : Update s (hostWriteOperand store s) := by
  unfold hostWriteOperand
  split
  · exact raiseBusy_update (by simp)
  · next hb => exact hstore (by simpa using hb)

theorem hostWriteReg_update {r : Reg} {w : Word} {s t : State} (hhost : s.agent = .host)
    (h : hostWriteReg r w s = .next t) : Update s t := by
  cases r with
  | cmd => exact submitWord_update hhost h
  | status | dstlen =>
    injection h with h
    exact h ▸ .same
  | srcaddr =>
    injection h with h
    exact h ▸ hostWriteOperand_update (.setSrcaddr w)
  | srclen =>
    injection h with h
    exact h ▸ hostWriteOperand_update (.setSrclen w)
  | dstaddr =>
    injection h with h
    exact h ▸ hostWriteOperand_update (.setDstaddr w)

theorem hostReadBuf_update {addr : Nat} {s t : State} (h : hostReadBuf addr s = .next t) : Update s t := by
  unfold hostReadBuf at h
  split at h
  · cases h
  · next haddr =>
    split at h
    · next hb =>
      injection h with h
      exact h ▸ .readBufBusy hb
    · next hb =>
      injection h with h
      exact h ▸ .readBuf (by simpa using hb) (by omega)

theorem hostWriteBuf_update {addr : Nat} {v : Byte} {s t : State} (h : hostWriteBuf addr v s = .next t) :
    Update s t := by
  unfold hostWriteBuf at h
  split at h
  · cases h
  · next haddr =>
    split at h
    · injection h with h
      exact h ▸ raiseBusy_update (by simpa using haddr)
    · next hb =>
      injection h with h
      exact h ▸ .writeBuf v (by simpa using hb) (by omega)

/-! ### A step is one update, once the turn is passed -/

/-- From `s`, the script and the turn may move on, and then one update is made. -/
def UpdatesTo (s t : State) : Prop := ∃ script agent, Update { s with script := script, agent := agent } t

theorem Update.updatesTo {s t : State} (h : Update s t) : UpdatesTo s t := ⟨s.script, s.agent, h⟩

theorem UpdatesTo.of_moved {script : List Event} {agent : Agent} {s t : State}
    (h : UpdatesTo { s with script := script, agent := agent } t) : UpdatesTo s t := h

theorem engineStep_updatesTo {s t : State} (h : engineStep s = .next t) : UpdatesTo s t := by
  obtain ⟨-, h'⟩ | ⟨hb, i, -, h'⟩ | ⟨-, e, -, h'⟩ := engineStep_cases s <;> rw [h'] at h
  · injection h with h
    exact h ▸ Update.same.updatesTo
  · exact ⟨s.script, .engine, exec_update (fun _ => hb) h⟩
  · cases h

theorem waitStep_updatesTo {polls : Nat} {s t : State} (h : waitStep polls s = .next t) : UpdatesTo s t := by
  unfold waitStep at h
  split at h
  · cases polls with
    | zero => exact .of_moved (engineStep_updatesTo h)
    | succ k =>
      injection h with h
      exact ⟨.wait k :: s.script, s.agent, h ▸ .readReg .status⟩
  · injection h with h
    exact h ▸ (Update.readReg .status).updatesTo

theorem runEvent_updatesTo {e : Event} {s t : State} (hhost : s.agent = .host) (h : runEvent e s = .next t) :
    UpdatesTo s t := by
  cases e with
  | readReg r =>
    injection h with h
    exact h ▸ (Update.readReg r).updatesTo
  | writeReg r v => exact (hostWriteReg_update hhost h).updatesTo
  | readBuf addr => exact (hostReadBuf_update h).updatesTo
  | writeBuf addr v => exact (hostWriteBuf_update h).updatesTo
  | wait polls => exact waitStep_updatesTo h
  | complete => exact engineStep_updatesTo h
  | hardwareReset =>
    injection h with h
    exact h ▸ Update.hardwareReset.updatesTo

/-- Every step that stops nothing makes one update (R60). -/
theorem step_updatesTo {s t : State} (h : step s = .next t) : UpdatesTo s t := by
  obtain ⟨-, h'⟩ | ⟨e, rest, -, h'⟩ := step_cases s <;> rw [h'] at h
  · exact engineStep_updatesTo h
  · exact .of_moved (runEvent_updatesTo rfl h)

/-! ### BUF_SIZE -/

@[simp] theorem raiseBusy_lastAddr (l : List Nat) (s : State) : (raiseBusy l s).lastAddr = s.lastAddr := by
  simp [raiseBusy]

theorem Update.lastAddr_eq {s t : State} (h : Update s t) : t.lastAddr = s.lastAddr := by
  cases h with
  | same | readBuf | setSrcaddr | setSrclen | setDstaddr => rfl
  | readReg r => exact hostReadReg_lastAddr r s
  | readBufBusy => exact raiseBusy_lastAddr [] s
  | writeBuf v => exact writeByte_lastAddr _ v s
  | accept => exact latch_lastAddr _ s
  | fault c => exact raiseFault_lastAddr c _ s
  | complete => exact finish_lastAddr _ _ s
  | softReset => exact softReset_lastAddr s
  | hardwareReset => exact hardwareReset_lastAddr s

theorem step_lastAddr {s t : State} (h : step s = .next t) : t.lastAddr = s.lastAddr := by
  obtain ⟨_, _, hu⟩ := step_updatesTo h
  exact hu.lastAddr_eq

theorem bufSize_bounds (s : State) : 1 ≤ s.bufSize ∧ s.bufSize ≤ 65535 :=
  ⟨Nat.le_add_left 1 _, s.lastAddr.isLt⟩

/-- Settles O57: every step makes one update, and each of them keeps the parameter. -/
theorem bufSizeNeverChanges : Obligations.BufSizeNeverChanges := by
  intro s t h
  exact ⟨by rw [State.bufSize, step_lastAddr h, State.bufSize], bufSize_bounds t⟩

end Sys2Proof.Machine
end

section
/-! PROOFS. The state and what every step keeps of it: reset, the invariant, the phases of R36, the registers the
engine leaves alone, and that the hidden registers have no influence. The invariant goes through `step_updatesTo`;
the phases and the engine's frame need the cause of an update too, so they follow the step's agents. -/

namespace Sys2Proof.Machine

/-! ### One equation for each way a step goes -/

theorem step_of_nil {s : State} (h : s.script = []) : step s = engineStep s := by
  simp [step, runMachine, h]

theorem step_of_cons {s : State} {e : Event} {rest : List Event} (h : s.script = e :: rest) :
    step s = runEvent e { s with script := rest, agent := .host } := by
  simp [step, runMachine, h]

theorem engineStep_of_idle {s : State} (h : s.busy = false) : engineStep s = .next s := by
  simp [engineStep, h]

theorem engineStep_of_decode {s : State} {i : Instr} (hbusy : s.busy = true) (hdec : decode s.cmdl = .ok i) :
    engineStep s = exec i { s with agent := .engine } := by
  simp [engineStep, hbusy, hdec]

theorem waitStep_of_idle (polls : Nat) {s : State} (h : s.busy = false) :
    waitStep polls s = .next (hostReadReg .status s) := by
  simp [waitStep, h]

theorem waitStep_zero_of_busy {s : State} (h : s.busy = true) :
    waitStep 0 s = engineStep { s with script := .wait 0 :: s.script } := by
  simp [waitStep, h]

theorem waitStep_succ_of_busy (k : Nat) {s : State} (h : s.busy = true) :
    waitStep (k + 1) s = .next { hostReadReg .status s with script := .wait k :: s.script } := by
  simp [waitStep, h]

/-! ### Reset and read-only writes -/

/-- Settles O7. -/
theorem resetRegistersZero : Obligations.ResetRegistersZero :=
  ⟨rfl, rfl, rfl, rfl, rfl, rfl, rfl, rfl⟩

/-- Settles O8: BUF lists nothing and every register is 0. -/
theorem invariantAtReset : Obligations.InvariantAtReset where
  bufSorted := reset_wf
  bufExists _ hc := absurd hc List.not_mem_nil
  statusLegal := List.mem_cons_self
  cmdlLegal := .inl rfl
  busyHolds hb := by cases hb
  dstlenFits := Nat.zero_le _
  hiddenClear := rfl

/-- Settles O49: `hostWriteReg` gives its state back for both registers. -/
theorem readOnlyWritesIgnored : Obligations.ReadOnlyWritesIgnored := by
  intro s r v rest hr hscript
  rw [step_of_cons hscript]
  obtain rfl | rfl : r = .status ∨ r = .dstlen := by simpa using hr
  · rfl
  · rfl

/-! ### Command words -/

/-- The word a data command is latched as holds a data command, its operands cut to 4 bits (R22, R72, R150). -/
theorem holdsDataCommand_encode {i : Instr} (h : i.isData = true) : holdsDataCommand (encode i) = true := by
  cases i with
  | nop | srst => cases h
  | n2p32 | p2n32 | n2p64 | p2n64 => decide
  | conv a b =>
    simp only [encode, widthField]
    generalize BitVec.ofNat 4 a = x
    generalize BitVec.ofNat 4 b = y
    revert x y
    decide
  | convip a b p =>
    simp only [encode, widthField]
    generalize BitVec.ofNat 4 a = x
    generalize BitVec.ofNat 4 b = y
    revert x y
    cases p <;> decide

theorem holdsDataCommand_of_decode {w : Word} {i : Instr} (hdec : decode w = .ok i) (hi : i.isData = true) :
    holdsDataCommand w = true := by
  simp [holdsDataCommand, hdec, hi]

theorem decodePlain_eq_ok_iff {i j : Instr} {w : Word} :
    decodePlain i w = .ok j ↔ i = j ∧ w.extractLsb' 0 12 = 0 := by
  simp only [decodePlain, ite_eq_iff, Except.ok.injEq, reduceCtorEq, and_false, or_false]
  exact and_comm

theorem eq_F000_of_fields {w : Word} (hop : opField w = 0xF) (hlow : w.extractLsb' 0 12 = 0) : w = 0xF000 := by
  have hop' : w.toNat / 4096 % 16 = 15 := by
    simpa [opField, BitVec.extractLsb'_toNat, Nat.shiftRight_eq_div_pow] using congrArg BitVec.toNat hop
  have hlow' : w.toNat % 4096 = 0 := by
    simpa [BitVec.extractLsb'_toNat] using congrArg BitVec.toNat hlow
  have hw : w.toNat < 65536 := w.isLt
  exact BitVec.eq_of_toNat_eq (show w.toNat = 61440 by omega)

/-- Only the exact word 0xF000 is SRST (R153, R172). -/
theorem eq_F000_of_decode {w : Word} (h : decode w = .ok .srst) : w = 0xF000 := by
  simp only [decode, ite_eq_iff, decodePlain_eq_ok_iff, Except.ok.injEq, reduceCtorEq, false_and, and_false,
    false_or, or_false, true_and] at h
  obtain ⟨-, -, -, -, -, -, -, hop, hlow⟩ := h
  exact eq_F000_of_fields hop hlow

/-! ### The invariant -/

/-- A property of the nine STATUS words is decided word by word. -/
theorem of_mem_statusWords {P : Word → Prop} [DecidablePred P]
    (hall : statusWords.all (fun w => decide (P w)) = true) {st : Word} (h : st ∈ statusWords) : P st :=
  of_decide_eq_true (List.all_eq_true.mp hall st h)

theorem statusAccepted_legal {st : Word} (h : st ∈ statusWords) :
    statusErr st = false ∧ statusBusy st = false → statusAccepted st ∈ statusWords :=
  of_mem_statusWords (P := fun w => statusErr w = false ∧ statusBusy w = false → statusAccepted w ∈ statusWords)
    (by decide) h

theorem statusCompleted_legal {st : Word} (h : st ∈ statusWords) :
    statusBusy st = true → statusCompleted st ∈ statusWords :=
  of_mem_statusWords (P := fun w => statusBusy w = true → statusCompleted w ∈ statusWords) (by decide) h

theorem statusFaulted_legal (c : ErrCode) {st : Word} (h : st ∈ statusWords) :
    statusFaulted c st ∈ statusWords :=
  of_mem_statusWords (P := fun w => statusFaulted c w ∈ statusWords) (by cases c <;> decide) h

/-- A running block is in no fault (R27). -/
theorem State.Inv.err_of_busy {s : State} (h : s.Inv) : s.busy = true → s.err = false :=
  of_mem_statusWords (P := fun w => statusBusy w = true → statusErr w = false) (by decide) h.statusLegal

/-- The invariant reads these six fields and no other. -/
theorem State.Inv.of_eq {s t : State} (h : s.Inv) (hlast : t.lastAddr = s.lastAddr) (hbuf : t.buf = s.buf)
    (hstatus : t.status = s.status) (hcmdl : t.cmdl = s.cmdl) (hdstlen : t.dstlen = s.dstlen)
    (hhidden : t.hidden = s.hidden) : t.Inv := by
  have hsize : t.bufSize = s.bufSize := by simp only [State.bufSize, hlast]
  have hbusy : t.busy = s.busy := by simp only [State.busy, hstatus]
  exact {
    bufSorted := by rw [hbuf]; exact h.bufSorted
    bufExists := by rw [hbuf, hsize]; exact h.bufExists
    statusLegal := by rw [hstatus]; exact h.statusLegal
    cmdlLegal := by rw [hcmdl]; exact h.cmdlLegal
    busyHolds := by rw [hbusy, hcmdl]; exact h.busyHolds
    dstlenFits := by rw [hdstlen, hsize]; exact h.dstlenFits
    hiddenClear := hhidden.trans h.hiddenClear }

/-- The answer of a host read and the count of free bytes drawn are outside the invariant. -/
theorem State.Inv.answered {s : State} (h : s.Inv) (answer : Word) (freeCount : Nat) :
    State.Inv { s with answer := answer, freeCount := freeCount } :=
  h.of_eq rfl rfl rfl rfl rfl rfl

theorem unspecify_exists {l : List Nat} {s : State} {size : Nat} (hs : ∀ c ∈ s.buf, c.1 < size)
    (hl : ∀ a ∈ l, a < size) : ∀ c ∈ (unspecify l s).buf, c.1 < size := by
  intro c hc
  obtain hc | hc := mem_unspecify hc
  · exact hl _ hc
  · exact hs c hc

theorem writeByte_inv {addr : Nat} (v : Byte) {s : State} (h : s.Inv) (haddr : addr < s.bufSize) :
    (writeByte addr v s).Inv where
  bufSorted := write_wf addr v h.bufSorted
  bufExists c hc := by
    obtain rfl | hc := mem_write hc
    · exact haddr
    · exact h.bufExists c hc
  statusLegal := h.statusLegal
  cmdlLegal := h.cmdlLegal
  busyHolds := h.busyHolds
  dstlenFits := h.dstlenFits
  hiddenClear := h.hiddenClear

theorem latch_inv {i : Instr} {s : State} (h : s.Inv) (hi : i.isData = true) (herr : s.err = false)
    (hidle : s.busy = false) : (latch (encode i) s).Inv where
  bufSorted := h.bufSorted
  bufExists := h.bufExists
  statusLegal := statusAccepted_legal h.statusLegal ⟨herr, hidle⟩
  cmdlLegal := .inr (holdsDataCommand_encode hi)
  busyHolds _ := holdsDataCommand_encode hi
  dstlenFits := h.dstlenFits
  hiddenClear := rfl

theorem raiseFault_inv (c : ErrCode) {lost : List Nat} {s : State} (h : s.Inv)
    (hlost : ∀ a ∈ lost, a < s.bufSize) : (raiseFault c lost s).Inv where
  bufSorted := by simpa using unspecify_wf lost h.bufSorted
  bufExists := by simpa [State.bufSize] using unspecify_exists h.bufExists hlost
  statusLegal := by simpa using statusFaulted_legal c h.statusLegal
  cmdlLegal := by simpa using h.cmdlLegal
  busyHolds hb := by simp [State.busy] at hb
  dstlenFits := by simpa [State.bufSize] using h.dstlenFits
  hiddenClear := by simpa using h.hiddenClear

theorem finish_inv {r : Region} {out : List Byte} {s : State} (h : s.Inv) (hbusy : s.busy = true)
    (hfits : fits r.base r.len s) (hout : out.length = r.len) : (finish r out s).Inv where
  bufSorted := writeBytes_wf r.base out h.bufSorted
  bufExists c hc := by
    show c.1 < s.bufSize
    obtain hc | hc := mem_writeBytes hc
    · unfold fits at hfits
      omega
    · exact h.bufExists c hc
  statusLegal := statusCompleted_legal h.statusLegal hbusy
  cmdlLegal := h.cmdlLegal
  busyHolds hb := by simp [State.busy] at hb
  dstlenFits := by
    show (BitVec.ofNat 16 r.len).toNat ≤ s.bufSize
    have hmod : (BitVec.ofNat 16 r.len).toNat ≤ r.len := by simpa using Nat.mod_le _ _
    unfold fits at hfits
    omega
  hiddenClear := h.hiddenClear

@[simp] theorem softReset_busy (s : State) : (softReset s).busy = false :=
  congrArg statusBusy (softReset_status s)

@[simp] theorem hardwareReset_busy (s : State) : (hardwareReset s).busy = false :=
  congrArg statusBusy (hardwareReset_status s)

theorem softReset_inv {s : State} (h : s.Inv) : (softReset s).Inv where
  bufSorted := by
    rw [softReset_buf]
    split
    · exact unspecify_wf _ h.bufSorted
    · exact h.bufSorted
  bufExists := by
    rw [softReset_buf, State.bufSize, softReset_lastAddr]
    split
    · exact unspecify_exists h.bufExists (lt_bufSize_of_mem_addresses (abortRegion_fits s))
    · exact h.bufExists
  statusLegal := by simp [statusWords]
  cmdlLegal := .inl (softReset_cmdl s)
  busyHolds hb := by simp at hb
  dstlenFits := by simp
  hiddenClear := softReset_hidden s

theorem hardwareReset_inv (s : State) : (hardwareReset s).Inv where
  bufSorted := List.Pairwise.nil
  bufExists _ hc := absurd hc List.not_mem_nil
  statusLegal := List.mem_cons_self
  cmdlLegal := .inl rfl
  busyHolds hb := by simp at hb
  dstlenFits := Nat.zero_le _
  hiddenClear := rfl

/-- Each update keeps the invariant. -/
theorem Update.inv {s t : State} (hu : Update s t) (h : s.Inv) : t.Inv := by
  cases hu with
  | same => exact h
  | readReg | readBuf | setSrcaddr | setSrclen | setDstaddr => exact h.of_eq rfl rfl rfl rfl rfl rfl
  | readBufBusy =>
    have hfault : (raiseBusy [] s).Inv :=
      raiseFault_inv .busy h (by simpa using lt_bufSize_of_mem_addresses (abortRegion_fits s))
    exact hfault.answered _ _
  | writeBuf v _ haddr => exact writeByte_inv v h haddr
  | accept hi herr hidle => exact latch_inv h hi herr hidle
  | fault c hlost => exact raiseFault_inv c h hlost
  | complete hbusy hfits hout => exact finish_inv h hbusy hfits hout
  | softReset => exact softReset_inv h
  | hardwareReset => exact hardwareReset_inv s

/-- Settles O53: every step makes one update once the turn is passed, and each update keeps the invariant. -/
theorem stepKeepsInvariant : Obligations.StepKeepsInvariant := by
  intro s t h hstep
  obtain ⟨_, _, hu⟩ := step_updatesTo hstep
  exact hu.inv (h.of_eq rfl rfl rfl rfl rfl rfl)

/-! ### The engine's turn -/

/-- How the engine leaves the command it held: with a fault, or completed (R151). -/
def EngineOutcome (s t : State) : Prop :=
  (∃ c lost, t = raiseFault c lost s) ∨ (∃ r out, t = finish r out s)

theorem completeWith_outcome (plan : Except ErrCode Region) (limit : Nat) (output : List Byte → List Byte)
    (s : State) : EngineOutcome s (completeWith plan limit output s) := by
  obtain ⟨c, -, h⟩ | ⟨r, -, -, h⟩ | ⟨r, -, -, h⟩ := completeWith_cases plan limit output s
  · exact .inl ⟨c, [], h⟩
  · exact .inl ⟨.symbol, r.addresses, h⟩
  · exact .inr ⟨r, _, h⟩

theorem dataCommand_outcome {w : Word} {f : State → State} {s t : State} (hengine : s.agent = .engine)
    (hf : EngineOutcome s (f s)) (h : dataCommand w f s = .next t) : EngineOutcome s t := by
  rw [dataCommand_engine w f hengine] at h
  injection h with h
  exact h ▸ hf

/-- On the engine's turn a command faults or completes; NOP and SRST have no such turn. -/
theorem exec_outcome {i : Instr} {s t : State} (hengine : s.agent = .engine) (h : exec i s = .next t) :
    EngineOutcome s t := by
  cases i with
  | nop => simp [exec, execNop, hengine] at h
  | srst => simp [exec, execSrst, hengine] at h
  | conv | convip | n2p32 | p2n32 | n2p64 | p2n64 =>
    exact dataCommand_outcome hengine (completeWith_outcome _ _ _ s) h

theorem engineStep_outcome {s t : State} (h : engineStep s = .next t) :
    (s.busy = false ∧ t = s) ∨ (s.busy = true ∧ EngineOutcome { s with agent := .engine } t) := by
  obtain ⟨hidle, h'⟩ | ⟨hbusy, i, -, h'⟩ | ⟨-, e, -, h'⟩ := engineStep_cases s <;> rw [h'] at h
  · injection h with h
    exact .inl ⟨hidle, h.symm⟩
  · exact .inr ⟨hbusy, exec_outcome rfl h⟩
  · cases h

/-- A step that is the engine's faults or completes the running command; with none running it changes none
of the block's own fields (R151, R155). -/
theorem step_outcome_of_engineNext {s t : State} (hnext : s.engineNext) (h : step s = .next t) :
    (∃ script agent answer, t = { s with script := script, agent := agent, answer := answer }) ∨
    (s.busy = true ∧ ∃ script, EngineOutcome { s with script := script, agent := .engine } t) := by
  obtain ⟨-, h'⟩ | ⟨e, rest, hscript, h'⟩ := step_cases s <;> rw [h'] at h
  · obtain ⟨-, rfl⟩ | ⟨hbusy, hout⟩ := engineStep_outcome h
    · exact .inl ⟨_, _, _, rfl⟩
    · exact .inr ⟨hbusy, _, hout⟩
  · obtain rfl | rfl : e = .complete ∨ e = .wait 0 := by simpa [State.engineNext, hscript] using hnext
    · obtain ⟨-, rfl⟩ | ⟨hbusy, hout⟩ := engineStep_outcome h
      · exact .inl ⟨_, _, _, rfl⟩
      · exact .inr ⟨hbusy, _, hout⟩
    · rw [runEvent] at h
      cases hb : State.busy { s with script := rest, agent := .host } with
      | true =>
        rw [waitStep_zero_of_busy hb] at h
        obtain ⟨-, rfl⟩ | ⟨-, hout⟩ := engineStep_outcome h
        · exact .inl ⟨_, _, _, rfl⟩
        · exact .inr ⟨hb, _, hout⟩
      | false =>
        rw [waitStep_of_idle 0 hb] at h
        injection h with h
        exact .inl ⟨_, _, _, h.symm⟩

/-- Settles O56: faults write STATUS and BUF, a completion DSTLEN too. -/
theorem engineKeepsOperandRegisters : Obligations.EngineKeepsOperandRegisters := by
  intro s t hnext hstep
  obtain ⟨_, _, _, rfl⟩ | ⟨-, _, ⟨_, _, rfl⟩ | ⟨_, _, rfl⟩⟩ := step_outcome_of_engineNext hnext hstep
  · exact ⟨rfl, rfl, rfl, rfl⟩
  · simp
  · simp

/-! ### The phases -/

theorem phase_of_status {s t : State} (h : t.status = s.status) : t.phase = s.phase := by
  unfold State.phase State.err State.busy State.done
  rw [h]

theorem phase_answered (s : State) (answer : Word) (freeCount : Nat) :
    State.phase { s with answer := answer, freeCount := freeCount } = s.phase :=
  phase_of_status rfl

theorem phase_idle_or_done {s : State} (herr : s.err = false) (hidle : s.busy = false) :
    s.phase = .idle ∨ s.phase = .done := by
  cases hdone : s.done <;> simp [State.phase, herr, hidle, hdone]

theorem phase_busy {s : State} (herr : s.err = false) (hbusy : s.busy = true) : s.phase = .busy := by
  simp [State.phase, herr, hbusy]

@[simp] theorem raiseFault_phase (c : ErrCode) (lost : List Nat) (s : State) : (raiseFault c lost s).phase = .err := by
  simp [State.phase, State.err]

@[simp] theorem softReset_phase (s : State) : (softReset s).phase = .idle :=
  phase_of_status (s := State.reset) (softReset_status s)

@[simp] theorem hardwareReset_phase (s : State) : (hardwareReset s).phase = .idle :=
  phase_of_status (s := State.reset) (hardwareReset_status s)

theorem raiseBusy_phase (touched : List Nat) (s : State) : (raiseBusy touched s).phase = .err :=
  raiseFault_phase .busy _ s

theorem latch_phase (w : Word) {s : State} (herr : s.err = false) : (latch w s).phase = .busy := by
  unfold State.err at herr
  simp [State.phase, State.err, State.busy, herr]

theorem finish_phase (r : Region) (out : List Byte) {s : State} (herr : s.err = false) :
    (finish r out s).phase = .done := by
  unfold State.err at herr
  simp [State.phase, State.err, State.busy, State.done, herr]

/-- The two moves of R36 that need no particular cause: the phase stays, or a fault is raised. -/
def PhaseKeptOrErr (s t : State) : Prop := t.phase = s.phase ∨ (s.phase ≠ .err ∧ t.phase = .err)

theorem PhaseKeptOrErr.of_status {s t : State} (h : t.status = s.status) : PhaseKeptOrErr s t :=
  .inl (phase_of_status h)

theorem PhaseKeptOrErr.of_err {s t : State} (h : t.phase = .err) : PhaseKeptOrErr s t := by
  by_cases hs : s.phase = .err
  · exact .inl (h.trans hs.symm)
  · exact .inr ⟨hs, h⟩

theorem PhaseKeptOrErr.of_raiseFault (c : ErrCode) (lost : List Nat) (s : State) :
    PhaseKeptOrErr s (raiseFault c lost s) := .of_err (raiseFault_phase c lost s)

theorem PhaseKeptOrErr.of_moved {script : List Event} {agent : Agent} {s t : State}
    (h : PhaseKeptOrErr { s with script := script, agent := agent } t) : PhaseKeptOrErr s t := h

theorem hostReadBuf_phase {addr : Nat} {s t : State} (h : hostReadBuf addr s = .next t) : PhaseKeptOrErr s t := by
  unfold hostReadBuf at h
  split_ifs at h <;> injection h with h
  · exact h ▸ .of_err ((phase_answered _ _ _).trans (raiseBusy_phase [] s))
  · exact h ▸ .of_status rfl

theorem hostWriteBuf_phase {addr : Nat} {v : Byte} {s t : State} (h : hostWriteBuf addr v s = .next t) :
    PhaseKeptOrErr s t := by
  unfold hostWriteBuf at h
  split_ifs at h <;> injection h with h
  · exact h ▸ .of_raiseFault .busy _ s
  · exact h ▸ .of_status rfl

theorem hostWriteOperand_phase {store : State → State} {s : State} (hstore : (store s).status = s.status) :
    PhaseKeptOrErr s (hostWriteOperand store s) := by
  unfold hostWriteOperand
  split
  · exact .of_raiseFault .busy _ s
  · exact .of_status hstore

theorem submit_phase {run : State → State} {s : State} (hrun : PhaseKeptOrErr s (run s)) :
    PhaseKeptOrErr s (submit run s) := by
  obtain ⟨-, h⟩ | ⟨-, -, h⟩ | ⟨-, -, h⟩ := submit_cases run s <;> rw [h]
  · exact .of_status rfl
  · exact .of_raiseFault .busy _ s
  · exact hrun

/-- What the CMD write of the word w may do to the phase (R36, R150, R153). -/
def CmdWriteMove (w : Word) (s t : State) : Prop :=
  PhaseKeptOrErr s t ∨
  ((s.phase = .idle ∨ s.phase = .done) ∧ t.phase = .busy ∧ holdsDataCommand w = true) ∨
  (t.phase = .idle ∧ w = 0xF000)

theorem dataCommand_move {w v : Word} {f : State → State} {s t : State} (hhost : s.agent = .host)
    (hw : holdsDataCommand w = true) (h : dataCommand v f s = .next t) : CmdWriteMove w s t := by
  rw [dataCommand_host v f hhost] at h
  injection h with h
  subst h
  obtain ⟨-, h⟩ | ⟨-, -, h⟩ | ⟨herr, hidle, h⟩ := submit_cases (latch v) s <;> rw [h]
  · exact .inl (.of_status rfl)
  · exact .inl (.of_raiseFault .busy _ s)
  · exact .inr (.inl ⟨phase_idle_or_done herr hidle, latch_phase v herr, hw⟩)

theorem exec_move {w : Word} {i : Instr} {s t : State} (hhost : s.agent = .host) (hdec : decode w = .ok i)
    (h : exec i s = .next t) : CmdWriteMove w s t := by
  cases i with
  | nop =>
    simp only [exec, execNop, hhost] at h
    injection h with h
    exact h ▸ .inl (submit_phase (.of_status rfl))
  | srst =>
    simp only [exec, execSrst, hhost] at h
    injection h with h
    exact h ▸ .inr (.inr ⟨softReset_phase s, eq_F000_of_decode hdec⟩)
  | conv | convip | n2p32 | p2n32 | n2p64 | p2n64 =>
    exact dataCommand_move hhost (holdsDataCommand_of_decode hdec rfl) h

theorem submitWord_move {w : Word} {s t : State} (hhost : s.agent = .host) (h : submitWord w s = .next t) :
    CmdWriteMove w s t := by
  unfold submitWord at h
  split at h
  · next hdec => exact exec_move hhost hdec h
  · injection h with h
    exact h ▸ .inl (submit_phase (.of_raiseFault .illegal [] s))

/-- A register write changes the phase by a fault, or is the CMD write that R36 names. -/
theorem hostWriteReg_move {r : Reg} {w : Word} {s t : State} (hhost : s.agent = .host)
    (h : hostWriteReg r w s = .next t) : PhaseKeptOrErr s t ∨ (r = .cmd ∧ CmdWriteMove w s t) := by
  cases r with
  | cmd => exact .inr ⟨rfl, submitWord_move hhost h⟩
  | status | dstlen =>
    injection h with h
    exact h ▸ .inl (.of_status rfl)
  | srcaddr | srclen | dstaddr =>
    injection h with h
    exact h ▸ .inl (hostWriteOperand_phase rfl)

/-- While a step is the engine's the phase stays, or goes from BUSY to DONE, or to ERR (R36). -/
theorem engineNext_phase {s t : State} (hinv : s.Inv) (hnext : s.engineNext) (h : step s = .next t) :
    PhaseKeptOrErr s t ∨ (s.phase = .busy ∧ t.phase = .done) := by
  obtain ⟨_, _, _, rfl⟩ | ⟨hbusy, _, ⟨c, lost, rfl⟩ | ⟨r, out, rfl⟩⟩ := step_outcome_of_engineNext hnext h
  · exact .inl (.of_status rfl)
  · exact .inl (.of_err (raiseFault_phase c lost _))
  · have herr := hinv.err_of_busy hbusy
    exact .inr ⟨phase_busy herr hbusy, finish_phase r out herr⟩

/-- While a step is not the engine's the phase stays, or goes to ERR, or an entry of the script moves it
(R36). -/
theorem hostNext_phase {s t : State} (hnext : ¬s.engineNext) (h : step s = .next t) :
    PhaseKeptOrErr s t ∨
    ((s.phase = .idle ∨ s.phase = .done) ∧ t.phase = .busy ∧ s.submitsDataNext) ∨
    (t.phase = .idle ∧ s.resetsNext) := by
  obtain ⟨hscript, -⟩ | ⟨e, rest, hscript, h'⟩ := step_cases s
  · exact absurd (.inl hscript) hnext
  · rw [h'] at h
    have hhead : s.script.head? = some e := by rw [hscript]; rfl
    cases e with
    | readReg r =>
      injection h with h
      exact h ▸ .inl (.of_status rfl)
    | readBuf addr => exact .inl (.of_moved (hostReadBuf_phase h))
    | writeBuf addr v => exact .inl (.of_moved (hostWriteBuf_phase h))
    | complete => exact absurd (.inr (.inl hhead)) hnext
    | hardwareReset =>
      injection h with h
      exact h ▸ .inr (.inr ⟨hardwareReset_phase _, .inl hhead⟩)
    | wait polls =>
      cases polls with
      | zero => exact absurd (.inr (.inr hhead)) hnext
      | succ k =>
        rw [runEvent] at h
        cases hb : State.busy { s with script := rest, agent := .host } with
        | true =>
          rw [waitStep_succ_of_busy k hb] at h
          injection h with h
          exact h ▸ .inl (.of_status rfl)
        | false =>
          rw [waitStep_of_idle _ hb] at h
          injection h with h
          exact h ▸ .inl (.of_status rfl)
    | writeReg r v =>
      obtain hkept | ⟨rfl, hkept | ⟨hfrom, hto, hw⟩ | ⟨hto, hw⟩⟩ := hostWriteReg_move rfl h
      · exact .inl hkept
      · exact .inl hkept
      · exact .inr (.inl ⟨hfrom, hto, v, hhead, hw⟩)
      · exact .inr (.inr ⟨hto, .inr ⟨v, hhead, hw⟩⟩)

/-- Settles O54: the engine's step ends a command, any other step starts one, faults or resets. -/
theorem phaseTransitions : Obligations.PhaseTransitions := by
  intro s t hinv hstep
  by_cases hnext : s.engineNext
  · obtain (hsame | hfault) | ⟨hfrom, hto⟩ := engineNext_phase hinv hnext hstep
    · exact .inl hsame
    · exact .inr (.inr (.inr (.inl hfault)))
    · exact .inr (.inr (.inl ⟨hfrom, hto, hnext⟩))
  · obtain (hsame | hfault) | haccept | hreset := hostNext_phase hnext hstep
    · exact .inl hsame
    · exact .inr (.inr (.inr (.inl hfault)))
    · exact .inr (.inl haccept)
    · exact .inr (.inr (.inr (.inr hreset)))

/-! ### The empty source -/

@[simp] theorem outLen_zero (a b : Nat) (p : Bool) : outLen 0 a b p = 0 := by simp [outLen]

theorem readSource_eq_nil {s : State} (h : s.srclen = 0) : readSource s = [] := by simp [readSource, h]

theorem convPlan_of_empty {a b : Nat} {s : State} (hw : 1 ≤ a ∧ a ≤ 8 ∧ 1 ≤ b ∧ b ≤ 8) (h : s.srclen = 0) :
    convPlan a b s = .ok ⟨s.dstaddr.toNat, 0⟩ := by
  simp [convPlan, widthsLegal, hw, Region.inBounds, Region.overlaps, sourceRegion, convRegion, h]

theorem convipPlan_of_empty {a b : Nat} (p : Bool) {s : State} (hw : 1 ≤ a ∧ a ≤ 8 ∧ 1 ≤ b ∧ b ≤ 8)
    (h : s.srclen = 0) : convipPlan a b p s = .ok ⟨s.srcaddr.toNat, 0⟩ := by
  simp [convipPlan, widthsLegal, hw, Region.inBounds, sourceRegion, convipRegion, h]

theorem alphabetPlan_of_empty {s : State} (h : s.srclen = 0) : alphabetPlan s = .ok ⟨s.srcaddr.toNat, 0⟩ := by
  simp [alphabetPlan, Region.inBounds, sourceRegion, h]

/-- With no symbol to read and none to write, Complete writes DSTLEN and STATUS only. -/
theorem completeWith_of_empty {base limit : Nat} {output : List Byte → List Byte} {s : State} (h : s.srclen = 0)
    (hout : output [] = []) :
    completeWith (.ok ⟨base, 0⟩) limit output s = { s with dstlen := 0, status := statusCompleted s.status } := by
  simp [completeWith, readSource_eq_nil h, hout, finish, Memory.writeBytes]

theorem convBytes_nil (a b : Nat) (p : Bool) : convBytes a b p [] = [] := by
  simp [convBytes, convSymbols]

theorem exec_of_empty {i : Instr} {s : State} (hengine : s.agent = .engine) (h : s.srclen = 0)
    (hi : i ∈ [Instr.n2p32, .p2n32, .n2p64, .p2n64] ∨
      ∃ a b p, (1 ≤ a ∧ a ≤ 8 ∧ 1 ≤ b ∧ b ≤ 8) ∧ (i = .conv a b ∨ i = .convip a b p)) :
    exec i s = .next { s with dstlen := 0, status := statusCompleted s.status } := by
  have translate (t : List Byte) :
      translateComplete t s = { s with dstlen := 0, status := statusCompleted s.status } := by
    rw [translateComplete, alphabetPlan_of_empty h, completeWith_of_empty h List.map_nil]
  obtain hi | ⟨a, b, p, hw, rfl | rfl⟩ := hi
  · obtain rfl | rfl | rfl | rfl : i = .n2p32 ∨ i = .p2n32 ∨ i = .n2p64 ∨ i = .p2n64 := by simpa using hi
    all_goals exact (dataCommand_engine _ _ hengine).trans (congrArg _ (translate _))
  · refine (dataCommand_engine _ _ hengine).trans (congrArg _ ?_)
    rw [convComplete, convPlan_of_empty hw h, completeWith_of_empty h (convBytes_nil a b true)]
  · refine (dataCommand_engine _ _ hengine).trans (congrArg _ ?_)
    rw [convipComplete, convipPlan_of_empty p hw h, completeWith_of_empty h (convBytes_nil a b p)]

/-- Settles O27: every check passes on an empty source, and the output is empty too. -/
theorem emptySourceCompletes : Obligations.EmptySourceCompletes := by
  intro i s hengine h hi
  exact ⟨_, exec_of_empty hengine h hi, statusCompleted_busy _, statusCompleted_done _,
    fun _ hj => statusCompleted_high _ hj, rfl⟩

/-! ### The hidden registers -/

/-- Changing the hidden registers before the operation changes at most the hidden registers after it. -/
def IgnoresHidden (f : State → State) : Prop :=
  ∀ (s : State) (h : Hidden), ∃ h', f { s with hidden := h } = { f s with hidden := h' }

/-- The same for a step that may stop. -/
def StepIgnoresHidden (f : State → Host.Outcome State Fault Refusal) : Prop :=
  ∀ (s t : State) (h : Hidden), f s = .next t → ∃ h', f { s with hidden := h } = .next { t with hidden := h' }

theorem IgnoresHidden.self : IgnoresHidden fun s => s := fun _ h => ⟨h, rfl⟩

theorem IgnoresHidden.ite {c : State → Prop} [DecidablePred c] {f g : State → State}
    (hc : ∀ (s : State) (h : Hidden), c { s with hidden := h } ↔ c s) (hf : IgnoresHidden f)
    (hg : IgnoresHidden g) : IgnoresHidden fun s => if c s then f s else g s := by
  intro s h
  by_cases hs : c s
  · simpa only [if_pos hs, if_pos ((hc s h).mpr hs)] using hf s h
  · simpa only [if_neg hs, if_neg (mt (hc s h).mp hs)] using hg s h

theorem IgnoresHidden.next {f : State → State} (hf : IgnoresHidden f) : StepIgnoresHidden fun s => .next (f s) := by
  rintro s _ h ⟨⟩
  obtain ⟨h', heq⟩ := hf s h
  exact ⟨h', congrArg _ heq⟩

theorem StepIgnoresHidden.fault (r : Fault) : StepIgnoresHidden fun _ => .fault r := by
  rintro s t h ⟨⟩

theorem StepIgnoresHidden.ite {c : State → Prop} [DecidablePred c]
    {f g : State → Host.Outcome State Fault Refusal}
    (hc : ∀ (s : State) (h : Hidden), c { s with hidden := h } ↔ c s) (hf : StepIgnoresHidden f)
    (hg : StepIgnoresHidden g) : StepIgnoresHidden fun s => if c s then f s else g s := by
  intro s t h hstep
  by_cases hs : c s
  · simp only [if_pos hs] at hstep
    simpa only [if_pos ((hc s h).mpr hs)] using hf s t h hstep
  · simp only [if_neg hs] at hstep
    simpa only [if_neg (mt (hc s h).mp hs)] using hg s t h hstep

theorem StepIgnoresHidden.of_agent {f host engine : State → Host.Outcome State Fault Refusal}
    (hhost : ∀ s : State, s.agent = .host → f s = host s)
    (hengine : ∀ s : State, s.agent = .engine → f s = engine s) (h1 : StepIgnoresHidden host)
    (h2 : StepIgnoresHidden engine) : StepIgnoresHidden f := by
  intro s t h hstep
  obtain ha | ha : s.agent = .host ∨ s.agent = .engine := by cases s.agent <;> simp
  · rw [hhost s ha] at hstep
    rw [hhost { s with hidden := h } ha]
    exact h1 s t h hstep
  · rw [hengine s ha] at hstep
    rw [hengine { s with hidden := h } ha]
    exact h2 s t h hstep

/-! The operations that make a step, in the order of the model. -/

theorem unspecify_withHidden (l : List Nat) (s : State) (h : Hidden) :
    unspecify l { s with hidden := h } = { unspecify l s with hidden := h } := by
  induction l generalizing s with
  | nil => rfl
  | cons a rest ih =>
    exact ih { s with buf := Memory.write s.buf a (Config.freeByte s.freeCount), freeCount := s.freeCount + 1 }

theorem raiseFault_withHidden (c : ErrCode) (lost : List Nat) (s : State) (h : Hidden) :
    raiseFault c lost { s with hidden := h } = { raiseFault c lost s with hidden := h } := by
  simp only [raiseFault, unspecify_withHidden]

/-- AbortRegion is read off CMDL and the operand registers (R171). -/
theorem raiseBusy_withHidden (touched : List Nat) (s : State) (h : Hidden) :
    raiseBusy touched { s with hidden := h } = { raiseBusy touched s with hidden := h } :=
  raiseFault_withHidden .busy _ s h

theorem raiseBusy_ignoresHidden (touched : List Nat) : IgnoresHidden (raiseBusy touched) :=
  fun s h => ⟨h, raiseBusy_withHidden touched s h⟩

theorem softReset_ignoresHidden : IgnoresHidden softReset := by
  intro s h
  have hregion : abortRegion { s with hidden := h } = abortRegion s := rfl
  have hbusy : State.busy { s with hidden := h } = s.busy := rfl
  refine ⟨Hidden.cleared, ?_⟩
  unfold softReset
  rw [hregion, hbusy, unspecify_withHidden]
  cases s.busy
  · rfl
  · rfl

theorem latch_ignoresHidden (w : Word) : IgnoresHidden (latch w) := fun _ _ => ⟨Hidden.cleared, rfl⟩

theorem submit_ignoresHidden {run : State → State} (hrun : IgnoresHidden run) : IgnoresHidden (submit run) :=
  .ite (c := fun s => s.err = true) (fun _ _ => .rfl) .self
    (.ite (c := fun s => s.busy = true) (fun _ _ => .rfl) (raiseBusy_ignoresHidden []) hrun)

theorem hostWriteOperand_ignoresHidden {store : State → State} (hstore : IgnoresHidden store) :
    IgnoresHidden (hostWriteOperand store) :=
  .ite (c := fun s => s.busy = true) (fun _ _ => .rfl) (raiseBusy_ignoresHidden []) hstore

theorem hostReadReg_ignoresHidden (r : Reg) : IgnoresHidden (hostReadReg r) := fun _ h => ⟨h, rfl⟩

/-- A Complete step reads its checks and its source off the visible registers and BUF. -/
theorem completeWith_ignoresHidden {plan : State → Except ErrCode Region} (limit : Nat)
    (output : List Byte → List Byte)
    (hplan : ∀ (s : State) (h : Hidden), plan { s with hidden := h } = plan s) :
    IgnoresHidden fun s => completeWith (plan s) limit output s := by
  intro s h
  refine ⟨h, ?_⟩
  have hsource : readSource { s with hidden := h } = readSource s := rfl
  simp only [hplan, completeWith, hsource]
  split
  · exact raiseFault_withHidden _ [] s h
  · split
    · exact raiseFault_withHidden .symbol _ s h
    · rfl

theorem dataCommand_ignoresHidden (w : Word) {f : State → State} (hf : IgnoresHidden f) :
    StepIgnoresHidden (dataCommand w f) :=
  .of_agent (fun _ => dataCommand_host w f) (fun _ => dataCommand_engine w f)
    (submit_ignoresHidden (latch_ignoresHidden w)).next hf.next

theorem execNop_ignoresHidden : StepIgnoresHidden execNop :=
  .of_agent (host := fun s => .next (submit id s)) (fun s h => by simp only [execNop, h])
    (fun s h => by simp only [execNop, h]) (submit_ignoresHidden (run := id) .self).next (.fault .noCompleteStep)

theorem execSrst_ignoresHidden : StepIgnoresHidden execSrst :=
  .of_agent (fun s h => by simp only [execSrst, h]) (fun s h => by simp only [execSrst, h])
    softReset_ignoresHidden.next (.fault .noCompleteStep)

theorem exec_ignoresHidden (i : Instr) : StepIgnoresHidden (exec i) := by
  cases i with
  | nop => exact execNop_ignoresHidden
  | srst => exact execSrst_ignoresHidden
  | conv | convip | n2p32 | p2n32 | n2p64 | p2n64 =>
    exact dataCommand_ignoresHidden _ (completeWith_ignoresHidden _ _ fun _ _ => rfl)

theorem submitWord_ignoresHidden (w : Word) : StepIgnoresHidden (submitWord w) := by
  unfold submitWord
  cases decode w with
  | ok i => exact exec_ignoresHidden i
  | error => exact (submit_ignoresHidden fun s h => ⟨h, raiseFault_withHidden .illegal [] s h⟩).next

theorem hostWriteReg_ignoresHidden (r : Reg) (w : Word) : StepIgnoresHidden (hostWriteReg r w) := by
  cases r with
  | cmd => exact submitWord_ignoresHidden w
  | status | dstlen => exact IgnoresHidden.self.next
  | srcaddr | srclen | dstaddr => exact (hostWriteOperand_ignoresHidden fun _ h => ⟨h, rfl⟩).next

theorem hostReadBuf_ignoresHidden (addr : Nat) : StepIgnoresHidden (hostReadBuf addr) := by
  refine .ite (c := fun s => s.bufSize ≤ addr) (fun _ _ => .rfl) (.fault _)
    (.ite (c := fun s => s.busy = true) (fun _ _ => .rfl) ?_ ?_)
  · exact IgnoresHidden.next fun s h => ⟨h, by rw [raiseBusy_withHidden]⟩
  · exact IgnoresHidden.next fun _ h => ⟨h, rfl⟩

theorem hostWriteBuf_ignoresHidden (addr : Nat) (v : Byte) : StepIgnoresHidden (hostWriteBuf addr v) :=
  .ite (c := fun s => s.bufSize ≤ addr) (fun _ _ => .rfl) (.fault _)
    (.ite (c := fun s => s.busy = true) (fun _ _ => .rfl) (raiseBusy_ignoresHidden [addr]).next
      (IgnoresHidden.next fun _ h => ⟨h, rfl⟩))

theorem engineStep_ignoresHidden : StepIgnoresHidden engineStep := by
  intro s t h hstep
  obtain ⟨hidle, h'⟩ | ⟨hbusy, i, hdec, h'⟩ | ⟨-, e, -, h'⟩ := engineStep_cases s <;> rw [h'] at hstep
  · rw [engineStep_of_idle (s := { s with hidden := h }) hidle]
    exact IgnoresHidden.self.next s t h hstep
  · rw [engineStep_of_decode (s := { s with hidden := h }) hbusy hdec]
    exact exec_ignoresHidden i _ t h hstep
  · cases hstep

theorem waitStep_ignoresHidden (polls : Nat) : StepIgnoresHidden (waitStep polls) := by
  refine .ite (c := fun s => s.busy = true) (fun _ _ => .rfl) ?_ (hostReadReg_ignoresHidden .status).next
  cases polls with
  | zero => exact fun s t h hstep => engineStep_ignoresHidden _ t h hstep
  | succ k => exact IgnoresHidden.next fun _ h => ⟨h, rfl⟩

theorem runEvent_ignoresHidden (e : Event) : StepIgnoresHidden (runEvent e) := by
  cases e with
  | readReg r => exact (hostReadReg_ignoresHidden r).next
  | writeReg r v => exact fun s t h hstep => hostWriteReg_ignoresHidden r (valueOf v s) s t h hstep
  | readBuf addr => exact hostReadBuf_ignoresHidden addr
  | writeBuf addr v => exact hostWriteBuf_ignoresHidden addr v
  | wait polls => exact waitStep_ignoresHidden polls
  | complete => exact engineStep_ignoresHidden
  | hardwareReset => exact IgnoresHidden.next fun _ _ => ⟨Hidden.cleared, rfl⟩

/-- Settles O59: no operation reads the hidden registers; acceptance and the resets clear them, all others
keep them. -/
theorem hiddenStateHasNoInfluence : Obligations.HiddenStateHasNoInfluence := by
  intro s t h hstep
  obtain ⟨hscript, h'⟩ | ⟨e, rest, hscript, h'⟩ := step_cases s <;> rw [h'] at hstep
  · rw [step_of_nil (s := { s with hidden := h }) hscript]
    exact engineStep_ignoresHidden s t h hstep
  · rw [step_of_cons (s := { s with hidden := h }) hscript]
    exact runEvent_ignoresHidden e _ t h hstep

end Sys2Proof.Machine
end

section
/-! PROOFS. The BUF and REG spaces: what each host access answers (R50 to R53), which bytes a fault and a completion
leave alone (R64, R171), and that no run stops while its addresses exist: such a state has a next one
(`RunsOn.answers`), and its successors are of the same kind (`RunsOn.of_step`). -/

namespace Sys2Proof.Machine

/-! ### What the accesses of the host answer, one equation a case -/

theorem hostWriteOperand_of_idle (store : State → State) {s : State} (h : s.busy = false) :
    hostWriteOperand store s = store s := by simp [hostWriteOperand, h]

theorem hostWriteOperand_of_busy (store : State → State) {s : State} (h : s.busy = true) :
    hostWriteOperand store s = raiseBusy [] s := by simp [hostWriteOperand, h]

theorem hostReadBuf_of_absent {addr : Nat} {s : State} (h : s.bufSize ≤ addr) :
    hostReadBuf addr s = .fault .absentBufAddress := by simp [hostReadBuf, h]

theorem hostReadBuf_of_idle {addr : Nat} {s : State} (haddr : addr < s.bufSize) (h : s.busy = false) :
    hostReadBuf addr s = .next { s with answer := (readByte s addr).setWidth 16 } := by
  simp [hostReadBuf, h, Nat.not_le.mpr haddr]

theorem hostReadBuf_of_busy {addr : Nat} {s : State} (haddr : addr < s.bufSize) (h : s.busy = true) :
    hostReadBuf addr s = .next { raiseBusy [] s with
      answer := (Config.freeByte (raiseBusy [] s).freeCount).setWidth 16,
      freeCount := (raiseBusy [] s).freeCount + 1 } := by
  simp [hostReadBuf, h, Nat.not_le.mpr haddr]

theorem hostWriteBuf_of_absent {addr : Nat} (v : Byte) {s : State} (h : s.bufSize ≤ addr) :
    hostWriteBuf addr v s = .fault .absentBufAddress := by simp [hostWriteBuf, h]

theorem hostWriteBuf_of_idle {addr : Nat} (v : Byte) {s : State} (haddr : addr < s.bufSize) (h : s.busy = false) :
    hostWriteBuf addr v s = .next (writeByte addr v s) := by
  simp [hostWriteBuf, h, Nat.not_le.mpr haddr]

theorem hostWriteBuf_of_busy {addr : Nat} (v : Byte) {s : State} (haddr : addr < s.bufSize) (h : s.busy = true) :
    hostWriteBuf addr v s = .next (raiseBusy [addr] s) := by
  simp [hostWriteBuf, h, Nat.not_le.mpr haddr]

/-! ### What BUF reads as after each update -/

@[simp] theorem readByte_writeByte_same (addr : Nat) (v : Byte) (s : State) :
    readByte (writeByte addr v s) addr = v :=
  byteAt_write_same s.resetCount s.buf addr v

theorem writeByte_sameOutside (addr : Nat) (v : Byte) (s : State) : sameOutside ⟨addr, 1⟩ s (writeByte addr v s) :=
  fun _ hx => byteAt_write_ne s.resetCount s.buf v fun heq => hx ⟨heq.ge, by simp [heq]⟩

theorem readByte_raiseFault (c : ErrCode) {lost : List Nat} {s : State} {x : Nat} (h : x ∉ lost) :
    readByte (raiseFault c lost s) x = readByte s x :=
  readByte_unspecify h

theorem finish_sameOutside {r : Region} {out : List Byte} (s : State) (h : out.length = r.len) :
    sameOutside r s (finish r out s) :=
  fun _ hx => byteAt_writeBytes_outside s.resetCount s.buf r.base out (h ▸ hx)

/-! ### What a fault records and leaves alone -/

theorem raiseFault_eq (c : ErrCode) (lost : List Nat) (s : State) :
    raiseFault c lost s = { s with
      status := statusFaulted c s.status, buf := (unspecify lost s).buf, freeCount := s.freeCount + lost.length } := by
  rw [raiseFault, unspecify_eq]

theorem raiseFault_faultStatus (c : ErrCode) (lost : List Nat) (s : State) :
    FaultStatus c s (raiseFault c lost s) where
  err := statusFaulted_err c s.status
  busy := statusFaulted_busy c s.status
  done := statusFaulted_done c s.status
  code := statusFaulted_code c s.status
  reserved _ hi := statusFaulted_reserved c s.status hi

theorem raiseBusy_faultStatus (touched : List Nat) (s : State) : FaultStatus .busy s (raiseBusy touched s) :=
  raiseFault_faultStatus .busy _ s

/-- What a fault records is said of STATUS alone. -/
theorem FaultStatus.of_status {c : ErrCode} {s s' t t' : State} (h : FaultStatus c s t)
    (hs : s'.status = s.status) (ht : t'.status = t.status) : FaultStatus c s' t' where
  err := (congrArg statusErr ht).trans h.err
  busy := (congrArg statusBusy ht).trans h.busy
  done := (congrArg statusDone ht).trans h.done
  code := by rw [State.err, hs, ht]; exact h.code
  reserved i hi := by rw [hs, ht]; exact h.reserved i hi

/-- A fault loses the bytes of a region where the addresses it makes unspecified are in that region (R171). -/
theorem raiseFault_faultLosing (c : ErrCode) {lost : List Nat} {r : Region} (s : State)
    (h : ∀ x ∈ lost, r.base ≤ x ∧ x < r.base + r.len) : FaultLosing c r s (raiseFault c lost s) :=
  ⟨raiseFault_faultStatus c lost s, fun x hx => readByte_raiseFault c (mt (h x) hx), by rw [raiseFault_eq]⟩

/-- A violating access that names no byte loses AbortRegion only (R166, R171). -/
theorem raiseBusy_faultLosing (s : State) : FaultLosing .busy (abortRegion s) s (raiseBusy [] s) :=
  raiseFault_faultLosing .busy s (by simp)

/-! ### The host's steps on the registers -/

/-- STATUS as read keeps BUSY, DONE, ERR and ERRCODE and shows 0 in the reserved bits (R27). -/
theorem statusRead_getLsbD (st : Word) (i : Nat) :
    (statusRead st).getLsbD i = (st.getLsbD i && decide (i ≤ 2 ∨ (4 ≤ i ∧ i ≤ 7))) := by
  rw [statusRead, BitVec.getLsbD_and]
  congr 1
  by_cases hi : i < 16
  · interval_cases i <;> rfl
  · rw [BitVec.getLsbD_of_ge _ i (by omega), eq_comm, decide_eq_false_iff_not]
    omega

/-- Settles O46: the step is `hostReadReg`, which writes the answer and nothing else. -/
theorem readRegReturnsRegister : Obligations.ReadRegReturnsRegister := by
  intro s r rest hscript
  refine ⟨hostReadReg r { s with script := rest, agent := .host }, step_of_cons hscript, rfl,
    ?_, ?_, ?_, ?_, ?_, ?status⟩
  case status =>
    rintro rfl
    exact statusRead_getLsbD s.status
  all_goals
    rintro rfl
    rfl

/-- Settles O47: with BUSY 0 `hostWriteOperand` is its store. -/
theorem operandWriteStores : Obligations.OperandWriteStores := by
  intro s v rest hidle
  refine ⟨?_, ?_, ?_⟩ <;> intro hscript <;>
    exact (step_of_cons hscript).trans (congrArg Host.Outcome.next (hostWriteOperand_of_idle _ hidle))

/-- Settles O48: with BUSY 1 `hostWriteOperand` raises ERR_BUSY instead of its store, for each of the three. -/
theorem operandWriteWhileBusyFaults : Obligations.OperandWriteWhileBusyFaults := by
  intro s r v rest hr hscript hbusy _
  refine ⟨_, (step_of_cons hscript).trans ?_, raiseBusy_faultLosing _⟩
  obtain rfl | rfl | rfl : r = .srcaddr ∨ r = .srclen ∨ r = .dstaddr := by simpa using hr
  all_goals exact congrArg Host.Outcome.next (hostWriteOperand_of_busy _ hbusy)

/-! ### The host's steps on BUF -/

/-- Settles O52: both accesses test the address before BUSY. -/
theorem absentAddressStops : Obligations.AbsentAddressStops := by
  intro s addr v rest haddr
  exact ⟨fun hscript => (step_of_cons hscript).trans (hostReadBuf_of_absent haddr),
    fun hscript => (step_of_cons hscript).trans (hostWriteBuf_of_absent v haddr)⟩

/-- Settles O50: the read changes the answer only, and the write is one `writeByte`. -/
theorem bufferAccessWhenFree : Obligations.BufferAccessWhenFree := by
  intro s addr rest hidle haddr
  refine ⟨fun hscript => (step_of_cons hscript).trans (hostReadBuf_of_idle haddr hidle), fun v hscript => ?_⟩
  exact ⟨_, (step_of_cons hscript).trans (hostWriteBuf_of_idle v haddr hidle), readByte_writeByte_same addr v _,
    writeByte_sameOutside addr v _, rfl⟩

/-- Settles O51: a read loses AbortRegion, a write the byte it names too. -/
theorem bufferAccessWhileBusyFaults : Obligations.BufferAccessWhileBusyFaults := by
  intro s addr rest hbusy _ haddr
  refine ⟨fun hscript => ?_, fun v hscript => ?_⟩
  · obtain ⟨hstatus, hbytes, hrest⟩ := raiseBusy_faultLosing { s with script := rest, agent := .host }
    exact ⟨_, (step_of_cons hscript).trans (hostReadBuf_of_busy haddr hbusy), hstatus.of_status rfl rfl, hbytes,
      by rw [hrest]⟩
  · have hstatus := raiseBusy_faultStatus [addr] { s with script := rest, agent := .host }
    refine ⟨_, (step_of_cons hscript).trans (hostWriteBuf_of_busy v haddr hbusy), hstatus.of_status rfl rfl,
      fun x hx hout => ?_, by rw [raiseBusy, raiseFault_eq]⟩
    refine readByte_raiseFault .busy fun hmem => ?_
    obtain hmem | hmem := List.mem_append.mp hmem
    · exact hout ((mem_addresses _ x).mp hmem)
    · exact hx (List.mem_singleton.mp hmem)

/-! ### The frame of a fault-free completion -/

/-- A Complete step that leaves ERR 0 has passed its checks and changes its destination only (R64). -/
theorem completeWith_frame {plan : Except ErrCode Region} {limit : Nat} {output : List Byte → List Byte} {s : State}
    (hout : ∀ r, plan = .ok r → (output (readSource s)).length = r.len)
    (herr : (completeWith plan limit output s).err = false) :
    ∃ r, plan = .ok r ∧ sameOutside r s (completeWith plan limit output s) := by
  obtain ⟨c, -, h⟩ | ⟨r, -, -, h⟩ | ⟨r, hr, -, h⟩ := completeWith_cases plan limit output s <;> rw [h] at herr ⊢
  · simp [State.err] at herr
  · simp [State.err] at herr
  · exact ⟨r, hr, finish_sameOutside s (hout r hr)⟩

theorem not_mem_of_not_overlaps {r q : Region} (h : r.overlaps q = false) {x : Nat}
    (hx : r.base ≤ x ∧ x < r.base + r.len) : ¬(q.base ≤ x ∧ x < q.base + q.len) := by
  simp only [Region.overlaps, decide_eq_false_iff_not] at h
  omega

theorem convComplete_frame {a b : Nat} {s : State} (herr : (convComplete a b s).err = false) :
    sameOutside (convRegion a b s) s (convComplete a b s) ∧ (sourceRegion s).overlaps (convRegion a b s) = false := by
  have hout : ∀ r, convPlan a b s = .ok r → (convBytes a b true (readSource s)).length = r.len := by
    intro r hr
    obtain ⟨-, rfl, -⟩ := convPlan_ok hr
    simp [convRegion]
  obtain ⟨r, hr, hsame⟩ := completeWith_frame hout herr
  obtain ⟨-, rfl, -, -, hdisjoint⟩ := convPlan_ok hr
  exact ⟨hsame, hdisjoint⟩

theorem convipComplete_frame {a b : Nat} {p : Bool} {s : State} (herr : (convipComplete a b p s).err = false) :
    sameOutside (convipRegion a b p s) s (convipComplete a b p s) := by
  have hout : ∀ r, convipPlan a b p s = .ok r → (convBytes a b p (readSource s)).length = r.len := by
    intro r hr
    obtain ⟨-, rfl, -⟩ := convipPlan_ok hr
    simp [convipRegion]
  obtain ⟨r, hr, hsame⟩ := completeWith_frame hout herr
  obtain ⟨-, rfl, -⟩ := convipPlan_ok hr
  exact hsame

theorem translateComplete_frame {table : List Byte} {s : State} (herr : (translateComplete table s).err = false) :
    sameOutside (sourceRegion s) s (translateComplete table s) := by
  have hout : ∀ r, alphabetPlan s = .ok r → ((readSource s).map (tableEntry table)).length = r.len := by
    intro r hr
    obtain ⟨rfl, -⟩ := alphabetPlan_ok hr
    simp [sourceRegion]
  obtain ⟨r, hr, hsame⟩ := completeWith_frame hout herr
  obtain ⟨rfl, -⟩ := alphabetPlan_ok hr
  exact hsame

/-- On the engine's turn a data command answers its Complete step (R151). -/
theorem eq_of_dataCommand_engine {w : Word} {f : State → State} {s t : State} (hengine : s.agent = .engine)
    (h : dataCommand w f s = .next t) : f s = t := by
  rw [dataCommand_engine w f hengine] at h
  injection h

/-- Settles O34: CONV's source lies outside its destination, CONVIP's stale tail past its end. -/
theorem frameRule : Obligations.FrameRule := by
  intro s t hengine herr
  refine ⟨fun a b h => ?_, fun a b p h => ?_, fun i hi h => ?_⟩
  · obtain rfl := eq_of_dataCommand_engine hengine h
    obtain ⟨hsame, hdisjoint⟩ := convComplete_frame herr
    refine ⟨hsame, fun i hi => hsame _ (not_mem_of_not_overlaps hdisjoint ?_)⟩
    exact ⟨Nat.le_add_right _ _, Nat.add_lt_add_left hi _⟩
  · obtain rfl := eq_of_dataCommand_engine hengine h
    have hsame := convipComplete_frame herr
    refine ⟨hsame, fun i hi _ => hsame _ fun hmem => ?_⟩
    exact absurd hi (Nat.not_le.mpr (Nat.lt_of_add_lt_add_left hmem.2))
  · obtain rfl | rfl | rfl | rfl : i = .n2p32 ∨ i = .p2n32 ∨ i = .n2p64 ∨ i = .p2n64 := by simpa using hi
    all_goals
      obtain rfl := eq_of_dataCommand_engine hengine h
      exact translateComplete_frame herr

/-! ### What a step leaves of the script -/

theorem Update.script_eq {s t : State} (h : Update s t) : t.script = s.script := by
  cases h with
  | same | readBuf | setSrcaddr | setSrclen | setDstaddr => rfl
  | readReg r => exact hostReadReg_script r s
  | readBufBusy => exact raiseFault_script .busy _ s
  | writeBuf v => exact writeByte_script _ v s
  | accept => exact latch_script _ s
  | fault c => exact raiseFault_script c _ s
  | complete => exact finish_script _ _ s
  | softReset => exact softReset_script s
  | hardwareReset => exact hardwareReset_script s

theorem engineStep_script {s t : State} (h : engineStep s = .next t) : t.script = s.script := by
  obtain ⟨-, rfl⟩ | ⟨-, ⟨c, lost, rfl⟩ | ⟨r, out, rfl⟩⟩ := engineStep_outcome h
  · rfl
  · exact raiseFault_script c lost _
  · exact finish_script r out _

/-- WAIT is over, or goes on with some number of polls (R79). -/
theorem waitStep_script {polls : Nat} {s t : State} (h : waitStep polls s = .next t) :
    t.script = s.script ∨ ∃ k, t.script = .wait k :: s.script := by
  cases hb : s.busy with
  | false =>
    rw [waitStep_of_idle polls hb] at h
    injection h with h
    exact .inl (h ▸ rfl)
  | true =>
    cases polls with
    | zero =>
      rw [waitStep_zero_of_busy hb] at h
      exact .inr ⟨0, engineStep_script h⟩
    | succ k =>
      rw [waitStep_succ_of_busy k hb] at h
      injection h with h
      exact .inr ⟨k, h ▸ rfl⟩

theorem runEvent_script {e : Event} {s t : State} (hhost : s.agent = .host) (h : runEvent e s = .next t) :
    t.script = s.script ∨ ∃ k, t.script = .wait k :: s.script := by
  cases e with
  | wait polls => exact waitStep_script h
  | complete => exact .inl (engineStep_script h)
  | writeReg r v => exact .inl (hostWriteReg_update hhost h).script_eq
  | readBuf addr => exact .inl (hostReadBuf_update h).script_eq
  | writeBuf addr v => exact .inl (hostWriteBuf_update h).script_eq
  | readReg r =>
    injection h with h
    exact .inl (h ▸ rfl)
  | hardwareReset =>
    injection h with h
    exact .inl (h ▸ rfl)

/-- A step drops the first entry of the script, and may put a WAIT in its place. -/
theorem step_script {s t : State} (h : step s = .next t) :
    t.script = s.script.tail ∨ ∃ k, t.script = .wait k :: s.script.tail := by
  obtain ⟨hscript, h'⟩ | ⟨e, rest, hscript, h'⟩ := step_cases s <;> rw [h'] at h <;> rw [hscript]
  · exact .inl ((engineStep_script h).trans hscript)
  · exact runEvent_script rfl h

/-- No step makes an address appear that did not exist (R52, R53). -/
theorem step_scriptExists {s t : State} (hexists : s.scriptExists = true) (h : step s = .next t) :
    t.scriptExists = true := by
  have htail : s.script.tail.all (Event.addressExists s.bufSize) = true :=
    List.all_eq_true.mpr fun e he => List.all_eq_true.mp hexists e (List.mem_of_mem_tail he)
  rw [State.scriptExists, (bufSizeNeverChanges s t h).1]
  obtain hscript | ⟨k, hscript⟩ := step_script h <;> rw [hscript]
  · exact htail
  · exact htail

/-! ### Which steps answer a next state -/

theorem dataCommand_answers (w : Word) (f : State → State) (s : State) : ∃ t, dataCommand w f s = .next t := by
  cases h : s.agent with
  | host => exact ⟨_, dataCommand_host w f h⟩
  | engine => exact ⟨_, dataCommand_engine w f h⟩

/-- Only NOP and SRST on the engine's turn answer no next state (R151; log entry 9). -/
theorem exec_answers {i : Instr} {s : State} (h : s.agent = .host ∨ i.isData = true) : ∃ t, exec i s = .next t := by
  cases i with
  | nop =>
    have hhost : s.agent = .host := h.resolve_right (by simp [Instr.isData])
    exact ⟨submit id s, by simp only [exec, execNop, hhost]⟩
  | srst =>
    have hhost : s.agent = .host := h.resolve_right (by simp [Instr.isData])
    exact ⟨softReset s, by simp only [exec, execSrst, hhost]⟩
  | conv | convip | n2p32 | p2n32 | n2p64 | p2n64 => exact dataCommand_answers _ _ s

theorem decode_of_holdsDataCommand {w : Word} (h : holdsDataCommand w = true) :
    ∃ i, decode w = .ok i ∧ i.isData = true := by
  unfold holdsDataCommand at h
  split at h
  · next i hdec => exact ⟨i, hdec, h⟩
  · cases h

/-- The engine has a step while CMDL holds a data command whenever BUSY is 1 (R22, R151). -/
theorem engineStep_answers {s : State} (h : s.busy = true → holdsDataCommand s.cmdl = true) :
    ∃ t, engineStep s = .next t := by
  cases hb : s.busy with
  | false => exact ⟨s, engineStep_of_idle hb⟩
  | true =>
    obtain ⟨i, hdec, hdata⟩ := decode_of_holdsDataCommand (h hb)
    rw [engineStep_of_decode hb hdec]
    exact exec_answers (.inr hdata)

theorem waitStep_answers (polls : Nat) {s : State} (h : s.busy = true → holdsDataCommand s.cmdl = true) :
    ∃ t, waitStep polls s = .next t := by
  cases hb : s.busy with
  | false => exact ⟨_, waitStep_of_idle polls hb⟩
  | true =>
    cases polls with
    | zero =>
      rw [waitStep_zero_of_busy hb]
      exact engineStep_answers h
    | succ k => exact ⟨_, waitStep_succ_of_busy k hb⟩

theorem submitWord_answers (w : Word) {s : State} (hhost : s.agent = .host) : ∃ t, submitWord w s = .next t := by
  unfold submitWord
  split
  · exact exec_answers (.inl hhost)
  · exact ⟨_, rfl⟩

theorem hostWriteReg_answers (r : Reg) (w : Word) {s : State} (hhost : s.agent = .host) :
    ∃ t, hostWriteReg r w s = .next t := by
  cases r with
  | status | srcaddr | srclen | dstaddr | dstlen => exact ⟨_, rfl⟩
  | cmd => exact submitWord_answers w hhost

theorem hostReadBuf_answers {addr : Nat} {s : State} (haddr : addr < s.bufSize) :
    ∃ t, hostReadBuf addr s = .next t := by
  cases hb : s.busy with
  | false => exact ⟨_, hostReadBuf_of_idle haddr hb⟩
  | true => exact ⟨_, hostReadBuf_of_busy haddr hb⟩

theorem hostWriteBuf_answers {addr : Nat} (v : Byte) {s : State} (haddr : addr < s.bufSize) :
    ∃ t, hostWriteBuf addr v s = .next t := by
  cases hb : s.busy with
  | false => exact ⟨_, hostWriteBuf_of_idle v haddr hb⟩
  | true => exact ⟨_, hostWriteBuf_of_busy v haddr hb⟩

/-- An entry of the script answers where its address exists and a running command is a data command. -/
theorem runEvent_answers {e : Event} {s : State} (hhost : s.agent = .host)
    (haddr : e.addressExists s.bufSize = true) (hbusy : s.busy = true → holdsDataCommand s.cmdl = true) :
    ∃ t, runEvent e s = .next t := by
  cases e with
  | readReg | hardwareReset => exact ⟨_, rfl⟩
  | writeReg r v => exact hostWriteReg_answers r (valueOf v s) hhost
  | readBuf addr => exact hostReadBuf_answers (of_decide_eq_true haddr)
  | writeBuf addr v => exact hostWriteBuf_answers v (of_decide_eq_true haddr)
  | wait polls => exact waitStep_answers polls hbusy
  | complete => exact engineStep_answers hbusy

/-! ### Runs -/

theorem run_succ_of_step {s t : State} (n : Nat) (h : step s = .next t) :
    Host.Core.run core (n + 1) s = Host.Core.run core n t := by
  have hcore : core.step s = .next t := h
  simp only [Host.Core.run, hcore]

/-- A property under which a step answers, and which it keeps, lets a run go on for any number of steps. -/
theorem run_answers_of_invariant {P : State → Prop} (answers : ∀ s, P s → ∃ t, step s = .next t)
    (keeps : ∀ s t, P s → step s = .next t → P t) (n : Nat) {s : State} (h : P s) :
    ∃ t : State, Host.Core.run core n s = .next t ∧ P t := by
  induction n generalizing s with
  | zero => exact ⟨s, rfl, h⟩
  | succ n ih =>
    obtain ⟨t, hstep⟩ := answers s h
    rw [run_succ_of_step n hstep]
    exact ih (keeps s t h hstep)

/-- The states no run from which stops: the invariant holds, and the script names only addresses that exist. -/
structure RunsOn (s : State) : Prop where
  inv : s.Inv
  scriptExists : s.scriptExists = true

theorem RunsOn.answers {s : State} (h : RunsOn s) : ∃ t, step s = .next t := by
  obtain ⟨-, hstep⟩ | ⟨e, rest, hscript, hstep⟩ := step_cases s <;> rw [hstep]
  · exact engineStep_answers h.inv.busyHolds
  · have haddr : e.addressExists s.bufSize = true := List.all_eq_true.mp h.scriptExists e (by simp [hscript])
    exact runEvent_answers rfl haddr h.inv.busyHolds

theorem RunsOn.of_step {s t : State} (h : RunsOn s) (hstep : step s = .next t) : RunsOn t :=
  ⟨stepKeepsInvariant s t h.inv hstep, step_scriptExists h.scriptExists hstep⟩

/-- Settles O60, by induction on the number of steps: each answers, and keeps what makes the next one answer. -/
theorem runNeverStops : Obligations.RunNeverStops := by
  intro s n hinv hexists
  obtain ⟨t, hrun, -⟩ :=
    run_answers_of_invariant (fun _ => RunsOn.answers) (fun _ _ => RunsOn.of_step) n ⟨hinv, hexists⟩
  exact ⟨t, hrun⟩

end Sys2Proof.Machine
end

section
/-! PROOFS. The command word (R70 to R77). A word is its five fields side by side (`wordOf`), and the fields decide
which command it encodes (`encodes_of_low12`, `encodes_conv_of_fields`, `encodes_convip_of_fields`). Decoder, opcode
map and written-out test each accept exactly the words that encode a well-formed command. -/

namespace Sys2Proof

/-! ### A word is its fields -/

/-- The word with these fields, OP highest (R70). -/
def wordOf (op s d : BitVec 4) (p : Bool) (z : BitVec 3) : Word := op ++ s ++ d ++ BitVec.ofBool p ++ z

section
variable (op s d : BitVec 4) (p : Bool) (z : BitVec 3)

@[simp] theorem opField_wordOf : opField (wordOf op s d p z) = op := by
  simp only [opField, wordOf, BitVec.extractLsb'_append_eq_of_le, Nat.reduceLeDiff, Nat.reduceSub,
    BitVec.extractLsb'_eq_self]

@[simp] theorem sField_wordOf : sField (wordOf op s d p z) = s := by
  simp only [sField, wordOf, BitVec.extractLsb'_append_eq_of_le, BitVec.extractLsb'_append_eq_right,
    Nat.reduceLeDiff, Nat.reduceSub]

@[simp] theorem dField_wordOf : dField (wordOf op s d p z) = d := by
  simp only [dField, wordOf, BitVec.extractLsb'_append_eq_of_le, BitVec.extractLsb'_append_eq_right,
    Nat.reduceLeDiff, Nat.reduceSub]

@[simp] theorem pField_wordOf : pField (wordOf op s d p z) = p := by
  simp only [pField, wordOf, BitVec.getLsbD_append, Nat.reduceSub, Nat.reduceLT, if_false, if_true,
    BitVec.getLsbD_ofBool, decide_true, Bool.true_and]

@[simp] theorem zField_wordOf : zField (wordOf op s d p z) = z := BitVec.extractLsb'_append_eq_right

end

theorem ofBool_pField (w : Word) : BitVec.ofBool (pField w) = w.extractLsb' 3 1 := by
  ext i hi
  obtain rfl : i = 0 := by omega
  simp [pField]

theorem pField_append_zField (w : Word) : BitVec.ofBool (pField w) ++ zField w = w.extractLsb' 0 4 := by
  rw [ofBool_pField]
  exact BitVec.extractLsb'_append_extractLsb'_eq_extractLsb' rfl

theorem wordOf_fields (w : Word) : wordOf (opField w) (sField w) (dField w) (pField w) (zField w) = w := by
  unfold wordOf opField sField dField zField
  rw [ofBool_pField, BitVec.extractLsb'_append_extractLsb'_eq_extractLsb' (by rfl),
    BitVec.extractLsb'_append_extractLsb'_eq_extractLsb' (by rfl),
    BitVec.extractLsb'_append_extractLsb'_eq_extractLsb' (by rfl),
    BitVec.extractLsb'_append_extractLsb'_eq_extractLsb' (by rfl)]
  exact BitVec.extractLsb'_eq_self

/-- The two ways of R74 to say that CONV's reserved bits are clear. -/
theorem low4_eq_zero_iff {w : Word} : w.extractLsb' 0 4 = 0 ↔ pField w = false ∧ zField w = 0 := by
  rw [← pField_append_zField]
  generalize pField w = p, zField w = z
  revert p z
  decide

theorem eq_opField_append_zero {w : Word} (hlow : w.extractLsb' 0 12 = 0) : w = opField w ++ 0#12 := by
  have hsplit : opField w ++ w.extractLsb' 0 12 = w := BitVec.extractLsb'_append_extractLsb' (w := 4) (len := 12)
  rw [hlow] at hsplit
  exact hsplit.symm

/-! ### The encoded word of each command with operands -/

theorem encode_conv (a b : Nat) :
    encode (.conv a b) = wordOf 1 (BitVec.ofNat 4 a) (BitVec.ofNat 4 b) false 0 := by
  simp only [encode, widthField]
  generalize BitVec.ofNat 4 a = x, BitVec.ofNat 4 b = y
  revert x y
  decide

theorem encode_convip (a b : Nat) (p : Bool) :
    encode (.convip a b p) = wordOf 2 (BitVec.ofNat 4 a) (BitVec.ofNat 4 b) p 0 := by
  simp only [encode, widthField]
  generalize BitVec.ofNat 4 a = x, BitVec.ofNat 4 b = y
  revert x y p
  decide

/-- A 4-bit field holds a width that fits (R72). -/
theorem widthFits_toNat (x : BitVec 4) : widthFits x.toNat = true := decide_eq_true x.isLt

theorem toNat_ofNat_of_widthFits {v : Nat} (h : widthFits v = true) : (BitVec.ofNat 4 v).toNat = v :=
  Nat.mod_eq_of_lt (of_decide_eq_true h)

/-! ### Which words encode a well-formed command -/

/-- The word encodes the well-formed command i. -/
def Encodes (i : Instr) (w : Word) : Prop := i.wellFormed = true ∧ encode i = w

theorem encodes_conv_of_fields {w : Word} (hop : opField w = 1) (hp : pField w = false) (hz : zField w = 0) :
    Encodes (.conv (sField w).toNat (dField w).toNat) w := by
  refine ⟨by simp [Instr.wellFormed, widthFits_toNat], ?_⟩
  conv_rhs => rw [← wordOf_fields w, hop, hp, hz]
  simp [encode_conv]

theorem encodes_convip_of_fields {w : Word} (hop : opField w = 2) (hz : zField w = 0) :
    Encodes (.convip (sField w).toNat (dField w).toNat (pField w)) w := by
  refine ⟨by simp [Instr.wellFormed, widthFits_toNat], ?_⟩
  conv_rhs => rw [← wordOf_fields w, hop, hz]
  simp [encode_convip]

/-- A word with bits 11:0 clear encodes the command without operands that its opcode names (R74, R75). -/
theorem encodes_of_low12 {i : Instr} {op : BitVec 4} {w : Word} (hi : Encodes i (op ++ 0#12))
    (hop : opField w = op) (hlow : w.extractLsb' 0 12 = 0) : Encodes i w := by
  rw [eq_opField_append_zero hlow, hop]
  exact hi

theorem encodes_of_decodePlain {i j : Instr} {op : BitVec 4} {w : Word} (hi : Encodes i (op ++ 0#12))
    (hop : opField w = op) (h : decodePlain i w = .ok j) : Encodes j w := by
  obtain ⟨rfl, hlow⟩ := Machine.decodePlain_eq_ok_iff.mp h
  exact encodes_of_low12 hi hop hlow

/-! ### Decoder and encoder -/

/-- Settles O1: the encoder's fields are read back one by one. -/
theorem decodeInvertsEncode : Obligations.DecodeInvertsEncode := by
  intro i hwf
  cases i with
  | nop | n2p32 | p2n32 | n2p64 | p2n64 | srst => decide
  | conv a b =>
    obtain ⟨ha, hb⟩ : widthFits a = true ∧ widthFits b = true := by simpa [Instr.wellFormed] using hwf
    simp only [encode_conv, decode, opField_wordOf, sField_wordOf, dField_wordOf, pField_wordOf, zField_wordOf]
    simp [toNat_ofNat_of_widthFits ha, toNat_ofNat_of_widthFits hb]
  | convip a b p =>
    obtain ⟨ha, hb⟩ : widthFits a = true ∧ widthFits b = true := by simpa [Instr.wellFormed] using hwf
    simp only [encode_convip, decode, opField_wordOf, sField_wordOf, dField_wordOf, pField_wordOf, zField_wordOf]
    simp [toNat_ofNat_of_widthFits ha, toNat_ofNat_of_widthFits hb]

/-- Settles O2, one branch of the decoder at a time. -/
theorem encodeInvertsDecode : Obligations.EncodeInvertsDecode := by
  intro w i h
  unfold decode at h
  split_ifs at h with h0 h1 hpz h2 hz h4 h5 h6 h7 hF
  · exact encodes_of_decodePlain ⟨rfl, rfl⟩ h0 h
  · injection h with h
    exact h ▸ encodes_conv_of_fields h1 hpz.1 hpz.2
  · injection h with h
    exact h ▸ encodes_convip_of_fields h2 hz
  · exact encodes_of_decodePlain ⟨rfl, rfl⟩ h4 h
  · exact encodes_of_decodePlain ⟨rfl, rfl⟩ h5 h
  · exact encodes_of_decodePlain ⟨rfl, rfl⟩ h6 h
  · exact encodes_of_decodePlain ⟨rfl, rfl⟩ h7 h
  · exact encodes_of_decodePlain ⟨rfl, rfl⟩ hF h

/-- A word decodes to the commands it encodes: O1 and O2 together. -/
theorem decode_eq_ok_iff {w : Word} {i : Instr} : decode w = .ok i ↔ Encodes i w :=
  ⟨encodeInvertsDecode w i, fun ⟨hwf, hw⟩ => hw ▸ decodeInvertsEncode i hwf⟩

/-! ### The opcode map -/

theorem row_mem_opcodeMap (i : Instr) : i.row ∈ opcodeMap := by
  cases i <;> simp [opcodeMap, Instr.row]

theorem exists_row_of_mem_opcodeMap {r : OpcodeRow} (h : r ∈ opcodeMap) : ∃ i : Instr, i.row = r := by
  have hmap : r ∈ [Instr.nop, .conv 0 0, .convip 0 0 false, .n2p32, .p2n32, .n2p64, .p2n64, .srst].map Instr.row := h
  obtain ⟨i, -, hi⟩ := List.mem_map.mp hmap
  exact ⟨i, hi⟩

/-- The word of a well-formed command selects the command's row: the model's law, for every command. -/
theorem row_selects_encode (i : Instr) : Laws.RowSelected.Statement i := by
  cases i with
  | nop => exact Laws.RowSelected.nop
  | conv a b => exact Laws.RowSelected.conv a b
  | convip a b p => exact Laws.RowSelected.convip a b p
  | n2p32 => exact Laws.RowSelected.n2p32
  | p2n32 => exact Laws.RowSelected.p2n32
  | n2p64 => exact Laws.RowSelected.n2p64
  | p2n64 => exact Laws.RowSelected.p2n64
  | srst => exact Laws.RowSelected.srst

theorem opField_and (w v : Word) : opField (w &&& v) = opField w &&& opField v := BitVec.extractLsb'_and
theorem zField_and (w v : Word) : zField (w &&& v) = zField w &&& zField v := BitVec.extractLsb'_and
theorem pField_and (w v : Word) : pField (w &&& v) = (pField w && pField v) := BitVec.getLsbD_and

/-- A mask with OP's bits compares OP (R75). -/
theorem opField_of_masked {w mask bits : Word} (hmask : opField mask = BitVec.allOnes 4) (h : w &&& mask = bits) :
    opField w = opField bits := by
  rw [← h, opField_and, hmask, BitVec.and_allOnes]

theorem zField_of_masked {w mask bits : Word} (hmask : zField mask = BitVec.allOnes 3) (h : w &&& mask = bits) :
    zField w = zField bits := by
  rw [← h, zField_and, hmask, BitVec.and_allOnes]

theorem pField_of_masked {w mask bits : Word} (hmask : pField mask = true) (h : w &&& mask = bits) :
    pField w = pField bits := by
  rw [← h, pField_and, hmask, Bool.and_true]

/-- A row whose mask has every bit is selected by its match only (R75). -/
theorem encodes_of_selects_exact {i : Instr} {w : Word} (hi : Encodes i i.row.matchBits)
    (hmask : i.row.mask = BitVec.allOnes 16) (h : i.row.selects w = true) : Encodes i w := by
  have hw : w &&& i.row.mask = i.row.matchBits := eq_of_beq h
  rw [hmask, BitVec.and_allOnes] at hw
  exact hw ▸ hi

/-- A word that selects a row encodes a command of that row, its operands read off the fields (R75). -/
theorem exists_encodes_of_selects {i : Instr} {w : Word} (h : i.row.selects w = true) :
    ∃ j : Instr, Encodes j w ∧ j.row = i.row := by
  cases i with
  | nop | n2p32 | p2n32 | n2p64 | p2n64 | srst =>
    exact ⟨_, encodes_of_selects_exact ⟨rfl, rfl⟩ rfl h, rfl⟩
  | conv =>
    have hmasked : w &&& 0xF00F = 0x1000 := eq_of_beq h
    have hop : opField w = 1 := (opField_of_masked (by decide) hmasked).trans (by decide)
    have hp : pField w = false := (pField_of_masked (by decide) hmasked).trans (by decide)
    have hz : zField w = 0 := (zField_of_masked (by decide) hmasked).trans (by decide)
    exact ⟨_, encodes_conv_of_fields hop hp hz, rfl⟩
  | convip =>
    have hmasked : w &&& 0xF007 = 0x2000 := eq_of_beq h
    have hop : opField w = 2 := (opField_of_masked (by decide) hmasked).trans (by decide)
    have hz : zField w = 0 := (zField_of_masked (by decide) hmasked).trans (by decide)
    exact ⟨_, encodes_convip_of_fields hop hz, rfl⟩

/-- Settles O3: decoding and selecting are both encoding, seen from the word. -/
theorem decodeFollowsOpcodeMap : Obligations.DecodeFollowsOpcodeMap := by
  intro w
  constructor
  · intro i hdec
    obtain ⟨hwf, rfl⟩ := decode_eq_ok_iff.mp hdec
    exact ⟨row_mem_opcodeMap i, row_selects_encode i hwf⟩
  · intro r hr hsel
    obtain ⟨i, rfl⟩ := exists_row_of_mem_opcodeMap hr
    obtain ⟨j, hj, hrow⟩ := exists_encodes_of_selects hsel
    exact ⟨j, decode_eq_ok_iff.mpr hj, hrow⟩

/-- Settles O5: the rows a word selects are both the row of the command it decodes to. -/
theorem opcodeRowsDisjoint : Obligations.OpcodeRowsDisjoint := by
  intro r hr q hq w hrw hqw
  obtain ⟨i, hi, rfl⟩ := (decodeFollowsOpcodeMap w).2 r hr hrw
  obtain ⟨j, hj, rfl⟩ := (decodeFollowsOpcodeMap w).2 q hq hqw
  obtain rfl : i = j := by simpa [hi] using hj
  rfl

/-! ### The written-out test -/

theorem legalWord_encode (i : Instr) : legalWord (encode i) = true := by
  cases i with
  | nop | n2p32 | p2n32 | n2p64 | p2n64 | srst => decide
  | conv a b =>
    have hlow : (encode (.conv a b)).extractLsb' 0 4 = 0 := low4_eq_zero_iff.mpr (by simp [encode_conv])
    have hop : opField (encode (.conv a b)) = 1 := by simp [encode_conv]
    simp [legalWord, hop, hlow]
  | convip a b p =>
    have hop : opField (encode (.convip a b p)) = 2 := by simp [encode_convip]
    have hz : zField (encode (.convip a b p)) = 0 := by simp [encode_convip]
    simp [legalWord, hop, hz]

theorem exists_encodes_of_legalWord {w : Word} (h : legalWord w = true) : ∃ i, Encodes i w := by
  unfold legalWord at h
  split_ifs at h with hplain hconv hconvip
  · have hlow : w.extractLsb' 0 12 = 0 := eq_of_beq h
    obtain hop | hop | hop | hop | hop | hop := hplain
    · exact ⟨.nop, encodes_of_low12 ⟨rfl, rfl⟩ hop hlow⟩
    · exact ⟨.n2p32, encodes_of_low12 ⟨rfl, rfl⟩ hop hlow⟩
    · exact ⟨.p2n32, encodes_of_low12 ⟨rfl, rfl⟩ hop hlow⟩
    · exact ⟨.n2p64, encodes_of_low12 ⟨rfl, rfl⟩ hop hlow⟩
    · exact ⟨.p2n64, encodes_of_low12 ⟨rfl, rfl⟩ hop hlow⟩
    · exact ⟨.srst, encodes_of_low12 ⟨rfl, rfl⟩ hop hlow⟩
  · obtain ⟨hp, hz⟩ := low4_eq_zero_iff.mp (eq_of_beq h)
    exact ⟨_, encodes_conv_of_fields hconv hp hz⟩
  · exact ⟨_, encodes_convip_of_fields hconvip (eq_of_beq h)⟩

/-- Settles O4: the test, too, accepts the words that encode a well-formed command. -/
theorem legalWordsDecode : Obligations.LegalWordsDecode := by
  intro w
  constructor
  · intro h
    obtain ⟨i, hi⟩ := exists_encodes_of_legalWord h
    exact ⟨i, decode_eq_ok_iff.mpr hi⟩
  · rintro ⟨i, hdec⟩
    obtain ⟨-, rfl⟩ := decode_eq_ok_iff.mp hdec
    exact legalWord_encode i

/-! ### The words of the spec -/

/-- Settles O6: the words of commands are encodings, and the refused ones are decoded as they stand. -/
theorem specWordsDecode : Obligations.SpecWordsDecode := by
  refine ⟨?nop, ?conv, ?convip, ?convip_no_partial, ?n2p32, ?p2n32, ?n2p64, ?p2n64, ?srst,
    ?reserved_opcode, ?conv_reserved_bit, ?srst_reserved_bit⟩
  case reserved_opcode | conv_reserved_bit | srst_reserved_bit => decide
  all_goals exact decode_eq_ok_iff.mpr ⟨rfl, rfl⟩

end Sys2Proof
end

section
/-! PROOFS. The conversion as arithmetic (R90 to R93, R98, R99). Conv cuts the value of the stream into groups of b
bits, lowest first; `leadingGroups` says this by recursion on the count, and the laws of Conv follow by induction:
reading the groups back gives the value (`streamValue_leadingGroups`), and cutting a value into symbols of its own
width gives the symbols back (`leadingGroups_streamValue`). -/

namespace Sys2Proof.Machine

/-! ### The output count -/

theorem outLen_false (n a b : Nat) : outLen n a b false = n * a / b := by simp [outLen]

theorem outLen_of_mod_eq_zero {n a b : Nat} (p : Bool) (h : n * a % b = 0) : outLen n a b p = n * a / b := by
  simp [outLen, h]

theorem outLen_true_of_mod_ne_zero {n a b : Nat} (h : n * a % b ≠ 0) : outLen n a b true = n * a / b + 1 := by
  simp [outLen, h]

/-- With P = 1 the output has room for every bit of the stream, and less than one group to spare (R91). -/
theorem outLen_true_bounds (n a : Nat) {b : Nat} (hb : 1 ≤ b) :
    n * a ≤ b * outLen n a b true ∧ b * outLen n a b true < n * a + b := by
  have hdiv := Nat.div_add_mod (n * a) b
  have hlt := Nat.mod_lt (n * a) hb
  by_cases h : n * a % b = 0
  · rw [outLen_of_mod_eq_zero true h]
    omega
  · rw [outLen_true_of_mod_ne_zero h, Nat.mul_succ]
    omega

theorem outLen_true_eq_ceil (n a : Nat) {b : Nat} (hb : 1 ≤ b) : outLen n a b true = (n * a + b - 1) / b := by
  obtain ⟨hroom, htight⟩ := outLen_true_bounds n a hb
  refine (Nat.div_eq_of_lt_le ?_ ?_).symm
  · rw [Nat.mul_comm (outLen n a b true)]
    omega
  · rw [Nat.succ_mul, Nat.mul_comm (outLen n a b true)]
    omega

/-- Settles O35: each clause is one case of the leftover L mod b. -/
theorem outputCount : Obligations.OutputCount := fun n a b hb =>
  ⟨outLen_false n a b, fun p => outLen_of_mod_eq_zero p, outLen_true_of_mod_ne_zero, outLen_true_eq_ceil n a hb,
    outLen_zero a b⟩

/-! ### The value of the stream -/

theorem streamValue_eq_ofDigits (a : Nat) (src : List Nat) : streamValue a src = Nat.ofDigits (2 ^ a) src := by
  induction src with
  | nil => rfl
  | cons x rest ih => rw [streamValue, ih, Nat.ofDigits_cons]

/-- V is below 2^L (R92). -/
theorem streamValue_lt {a : Nat} {src : List Nat} (ha : 1 ≤ a) (h : ∀ x ∈ src, x < 2 ^ a) :
    streamValue a src < 2 ^ (src.length * a) := by
  rw [streamValue_eq_ofDigits, Nat.mul_comm, pow_mul]
  exact Nat.ofDigits_lt_base_pow_length (Nat.one_lt_two_pow (by omega)) h

theorem streamValue_append (a : Nat) (l m : List Nat) :
    streamValue a (l ++ m) = streamValue a l + 2 ^ (a * l.length) * streamValue a m := by
  simp only [streamValue_eq_ofDigits, Nat.ofDigits_append, pow_mul]

theorem streamValue_map_range (a n : Nat) (f : Nat → Nat) :
    streamValue a ((List.range n).map f) = ∑ i ∈ Finset.range n, f i * 2 ^ (a * i) := by
  induction n with
  | zero => rfl
  | succ n ih =>
    rw [List.range_succ, List.map_append, streamValue_append, ih, Finset.sum_range_succ]
    simp [streamValue, Nat.mul_comm]

/-! ### The groups of a value -/

/-- The `m` lowest groups of `b` bits of `v`, lowest first (R92). -/
def leadingGroups (b m v : Nat) : List Nat := (List.range m).map (outSymbol v b)

theorem convSymbols_eq (a b : Nat) (p : Bool) (src : List Nat) :
    convSymbols a b p src = leadingGroups b (outLen src.length a b p) (streamValue a src) := rfl

@[simp] theorem leadingGroups_zero (b v : Nat) : leadingGroups b 0 v = [] := rfl

theorem outSymbol_lt (v b k : Nat) : outSymbol v b k < 2 ^ b := Nat.mod_lt _ (Nat.two_pow_pos b)

theorem outSymbol_succ (v b k : Nat) : outSymbol v b (k + 1) = outSymbol (v / 2 ^ b) b k := by
  rw [outSymbol, outSymbol, Nat.mul_succ, Nat.add_comm, pow_add, Nat.div_div_eq_div_mul]

theorem leadingGroups_succ (b m v : Nat) :
    leadingGroups b (m + 1) v = v % 2 ^ b :: leadingGroups b m (v / 2 ^ b) := by
  have hfirst : outSymbol v b 0 = v % 2 ^ b := by simp [outSymbol]
  simp [leadingGroups, List.range_succ_eq_map, hfirst, outSymbol_succ]

theorem leadingGroups_add (b m k v : Nat) :
    leadingGroups b (m + k) v = leadingGroups b m v ++ leadingGroups b k (v / 2 ^ (b * m)) := by
  induction m generalizing v with
  | zero => simp
  | succ m ih =>
    have hdiv : v / 2 ^ b / 2 ^ (b * m) = v / 2 ^ (b * (m + 1)) := by
      rw [Nat.div_div_eq_div_mul, ← pow_add, Nat.add_comm, Nat.mul_succ]
    rw [Nat.succ_add, leadingGroups_succ, leadingGroups_succ, ih, hdiv, List.cons_append]

theorem leadingGroups_zero_value (b m : Nat) : leadingGroups b m 0 = List.replicate m 0 := by
  induction m with
  | zero => rfl
  | succ m ih => simp [leadingGroups_succ, ih, List.replicate_succ]

/-- Bits above the m lowest groups do not show in them. -/
theorem leadingGroups_add_high (b m v w : Nat) :
    leadingGroups b m (v + 2 ^ (b * m) * w) = leadingGroups b m v := by
  induction m generalizing v with
  | zero => rfl
  | succ m ih =>
    have hsplit : 2 ^ (b * (m + 1)) * w = 2 ^ b * (2 ^ (b * m) * w) := by ring
    rw [leadingGroups_succ, leadingGroups_succ, hsplit, Nat.add_mul_mod_self_left,
      Nat.add_mul_div_left _ _ (Nat.two_pow_pos b), ih]

/-- The groups read back as a stream give the value, up to the bits that were not cut. -/
theorem streamValue_leadingGroups (b m v : Nat) : streamValue b (leadingGroups b m v) = v % 2 ^ (b * m) := by
  induction m generalizing v with
  | zero => simp [streamValue, Nat.mod_one]
  | succ m ih => rw [leadingGroups_succ, streamValue, ih, Nat.mul_succ, Nat.add_comm (b * m), pow_add, Nat.mod_mul]

/-- A stream cut at its own width gives its symbols, and zeros past its end. -/
theorem leadingGroups_streamValue {a : Nat} {src : List Nat} (h : ∀ x ∈ src, x < 2 ^ a) (m : Nat)
    (hm : src.length ≤ m) :
    leadingGroups a m (streamValue a src) = src ++ List.replicate (m - src.length) 0 := by
  induction src generalizing m with
  | nil => exact leadingGroups_zero_value a m
  | cons x rest ih =>
    obtain ⟨hx, hrest⟩ := List.forall_mem_cons.mp h
    obtain ⟨k, rfl⟩ : ∃ k, m = k + 1 := Nat.exists_eq_succ_of_ne_zero (Nat.ne_zero_of_lt hm)
    have hmod : (x + 2 ^ a * streamValue a rest) % 2 ^ a = x := by
      rw [Nat.add_mul_mod_self_left, Nat.mod_eq_of_lt hx]
    have hdiv : (x + 2 ^ a * streamValue a rest) / 2 ^ a = streamValue a rest := by
      rw [Nat.add_mul_div_left _ _ (Nat.two_pow_pos a), Nat.div_eq_of_lt hx, Nat.zero_add]
    rw [streamValue, leadingGroups_succ, hmod, hdiv, ih hrest k (by simpa using hm)]
    simp

/-! ### The output symbols -/

theorem convSymbols_lt (a b : Nat) (p : Bool) (src : List Nat) : ∀ d ∈ convSymbols a b p src, d < 2 ^ b := by
  intro d hd
  obtain ⟨k, -, rfl⟩ := List.mem_map.mp hd
  exact outSymbol_lt _ b k

/-- The full groups, and the partial trailing symbol after them where P = 1 and bits are left (R91, R93). -/
theorem convSymbols_eq_append (a b : Nat) (p : Bool) (src : List Nat) :
    convSymbols a b p src = leadingGroups b (src.length * a / b) (streamValue a src) ++
      leadingGroups b (if p = true ∧ src.length * a % b ≠ 0 then 1 else 0)
        (streamValue a src / 2 ^ (b * (src.length * a / b))) := by
  rw [convSymbols_eq, outLen, leadingGroups_add]

theorem convSymbols_false (a b : Nat) (src : List Nat) :
    convSymbols a b false src = leadingGroups b (src.length * a / b) (streamValue a src) := by
  simp [convSymbols_eq_append]

/-- Past the full groups only the L mod b leftover bits of V remain (R93). -/
theorem leftover_lt {a b : Nat} {src : List Nat} (ha : 1 ≤ a) (h : ∀ x ∈ src, x < 2 ^ a) :
    streamValue a src / 2 ^ (b * (src.length * a / b)) < 2 ^ (src.length * a % b) := by
  rw [Nat.div_lt_iff_lt_mul (Nat.two_pow_pos _), ← pow_add, Nat.mod_add_div]
  exact streamValue_lt ha h

/-- Settles O36: the partial symbol is the group after the full ones, and only leftover bits remain there. -/
theorem partialSymbolHoldsLeftover : Obligations.PartialSymbolHoldsLeftover := by
  intro a b src ⟨ha, _, hb, _⟩ hsrc
  refine ⟨fun p => convSymbols_lt a b p src, ?_, fun hleft => ?_⟩
  · rw [convSymbols_false, convSymbols_eq_append, List.take_left' (by simp [leadingGroups])]
  · have hlt := leftover_lt (b := b) ha hsrc
    have hpow : 2 ^ (src.length * a % b) ≤ 2 ^ b := Nat.pow_le_pow_right (by omega) (Nat.mod_lt _ hb).le
    rw [Nat.mul_comm (src.length * a / b) b]
    refine ⟨?_, hlt⟩
    rw [convSymbols_eq_append, if_pos ⟨rfl, hleft⟩, leadingGroups_succ, leadingGroups_zero,
      Nat.mod_eq_of_lt (hlt.trans_le hpow), List.getLast?_concat]

theorem getElem_convBytes (a b : Nat) (p : Bool) (src : List Byte) {k : Nat}
    (h : k < (convBytes a b p src).length) :
    (convBytes a b p src)[k] = BitVec.ofNat 8 (outSymbol (streamValue a (src.map BitVec.toNat)) b k) := by
  simp [convBytes, convSymbols]

/-! ### There and back -/

/-- With P = 1 the output stream has the value of the source stream (R98). -/
theorem streamValue_convSymbols_true {a b : Nat} {src : List Nat} (ha : 1 ≤ a) (hb : 1 ≤ b)
    (h : ∀ x ∈ src, x < 2 ^ a) : streamValue b (convSymbols a b true src) = streamValue a src := by
  rw [convSymbols_eq, streamValue_leadingGroups]
  refine Nat.mod_eq_of_lt ((streamValue_lt ha h).trans_le ?_)
  exact Nat.pow_le_pow_right (by omega) (outLen_true_bounds src.length a hb).1

theorem convSymbols_convSymbols_true {a b : Nat} {src : List Nat} (p : Bool) (ha : 1 ≤ a) (hb : 1 ≤ b)
    (h : ∀ x ∈ src, x < 2 ^ a) (hlen : src.length ≤ outLen (outLen src.length a b true) b a p) :
    convSymbols b a p (convSymbols a b true src) =
      src ++ List.replicate (outLen (outLen src.length a b true) b a p - src.length) 0 := by
  rw [convSymbols_eq, length_convSymbols, streamValue_convSymbols_true ha hb h]
  exact leadingGroups_streamValue h _ hlen

/-- Where the count comes back exactly, so does the source. -/
theorem convSymbols_roundTrip {a b : Nat} {src : List Nat} (p : Bool) (ha : 1 ≤ a) (hb : 1 ≤ b)
    (h : ∀ x ∈ src, x < 2 ^ a) (hlen : outLen (outLen src.length a b true) b a p = src.length) :
    convSymbols b a p (convSymbols a b true src) = src := by
  rw [convSymbols_convSymbols_true p ha hb h hlen.ge, hlen]
  simp

/-- Settles O37: the value of the stream survives, so the way back can differ only in its count. -/
theorem roundTrip : Obligations.RoundTrip := by
  intro a b src ⟨ha, _, hb, hb8⟩ hsrc
  obtain ⟨hroom, htight⟩ := outLen_true_bounds src.length a hb
  refine ⟨⟨_, convSymbols_convSymbols_true true ha hb hsrc ?_⟩, fun hexact => ?_, ?_⟩
  · have hback := (outLen_true_bounds (outLen src.length a b true) b ha).1
    refine Nat.le_of_mul_le_mul_left (c := a) ?_ ha
    calc a * src.length = src.length * a := Nat.mul_comm _ _
      _ ≤ b * outLen src.length a b true := hroom
      _ = outLen src.length a b true * b := Nat.mul_comm _ _
      _ ≤ _ := hback
  · refine convSymbols_roundTrip true ha hb hsrc ?_
    have hbits : outLen src.length a b true * b = src.length * a := by
      rw [outLen_of_mod_eq_zero true hexact, Nat.div_mul_cancel (Nat.dvd_of_mod_eq_zero hexact)]
    rw [outLen_of_mod_eq_zero true (by rw [hbits, Nat.mul_mod_left]), hbits, Nat.mul_div_cancel _ ha]
  · rintro rfl
    refine convSymbols_roundTrip false ha hb hsrc ?_
    rw [outLen_false, Nat.mul_comm]
    omega

theorem convSymbols_same_width {a : Nat} {src : List Nat} (p : Bool) (ha : 1 ≤ a) (h : ∀ x ∈ src, x < 2 ^ a) :
    convSymbols a a p src = src := by
  have hlen : outLen src.length a a p = src.length := by
    rw [outLen_of_mod_eq_zero p (Nat.mul_mod_left _ _), Nat.mul_div_cancel _ ha]
  rw [convSymbols_eq, hlen, leadingGroups_streamValue h _ le_rfl]
  simp

/-- Settles O38: a stream cut at its own width gives its symbols. -/
theorem equalWidthsIdentity : Obligations.EqualWidthsIdentity := by
  intro a p src ha _ hsrc
  rw [convBytes, convSymbols_same_width p ha (by simpa using hsrc), List.map_map]
  exact List.map_id'' (fun x => by simp) src

end Sys2Proof.Machine
end

section
/-! PROOFS. The sliding window (R95, R96). `Hidden.Holds` says what WORK and WORKBITS stand for: so many bits of
so large a number. Each operation on the window has one rule about it. `Emits` says what a loop does: all full
groups of the number taken in are emitted and the rest is held; it holds over a whole source by `Emits.append`. -/

namespace Sys2Proof.Machine

/-! ### What the window holds -/

/-- WORK and WORKBITS hold `count` bits, of the value `value` (R96). -/
structure Hidden.Holds (h : Hidden) (count value : Nat) : Prop where
  workbits : h.workbits.toNat = count
  work : h.work.toNat = value
  below : value < 2 ^ count

theorem cleared_holds : Hidden.cleared.Holds 0 0 := ⟨rfl, rfl, Nat.one_pos⟩

/-- A symbol's bits go above those held, and where 16 and 4 bits have room for them nothing is lost. -/
theorem absorb_holds {a : Nat} {x : Byte} {h : Hidden} {c v : Nat} (hh : h.Holds c v) (hx : x.toNat < 2 ^ a)
    (hroom : c + a ≤ 15) : (absorb a x h).Holds (c + a) (v + 2 ^ c * x.toNat) := by
  have hsum : v + 2 ^ c * x.toNat < 2 ^ (c + a) := by
    calc v + 2 ^ c * x.toNat < 2 ^ c * 1 + 2 ^ c * x.toNat := by simpa using hh.below
      _ = 2 ^ c * (1 + x.toNat) := (Nat.mul_add _ _ _).symm
      _ ≤ 2 ^ c * 2 ^ a := Nat.mul_le_mul_left _ (by omega)
      _ = 2 ^ (c + a) := (pow_add 2 c a).symm
  have hfit : v + 2 ^ c * x.toNat < 2 ^ 16 := hsum.trans_le (Nat.pow_le_pow_right (by omega) (by omega))
  refine ⟨?_, ?_, hsum⟩
  · simp only [absorb, BitVec.toNat_add, BitVec.toNat_ofNat, hh.workbits]
    omega
  · have hshift : (x.setWidth 16 <<< c).toNat = 2 ^ c * x.toNat := by
      rw [BitVec.toNat_shiftLeft, BitVec.toNat_setWidth_of_le (by omega), Nat.shiftLeft_eq, Nat.mul_comm,
        Nat.mod_eq_of_lt (by omega)]
    simp only [absorb, BitVec.toNat_or, hh.workbits, hh.work, hshift]
    rw [Nat.lor_comm, ← Nat.two_pow_add_eq_or_of_lt hh.below, Nat.add_comm]

theorem lowGroup_eq {b : Nat} {h : Hidden} {c v : Nat} (hh : h.Holds c v) (hb : b ≤ 8) :
    lowGroup b h = BitVec.ofNat 8 (v % 2 ^ b) := by
  have hpow : 2 ^ b ≤ 2 ^ 8 := Nat.pow_le_pow_right (by omega) hb
  have hmask : (BitVec.ofNat 16 (2 ^ b - 1)).toNat = 2 ^ b - 1 := by
    rw [BitVec.toNat_ofNat, Nat.mod_eq_of_lt (by omega)]
  apply BitVec.eq_of_toNat_eq
  rw [lowGroup, BitVec.toNat_setWidth, BitVec.toNat_and, hmask, Nat.and_two_pow_sub_one_eq_mod, hh.work,
    BitVec.toNat_ofNat]

theorem dropGroup_holds {b : Nat} {h : Hidden} {c v : Nat} (hh : h.Holds c v) (hb : b ≤ c) :
    (dropGroup b h).Holds (c - b) (v / 2 ^ b) := by
  have hc : c < 2 ^ 4 := hh.workbits ▸ h.workbits.isLt
  refine ⟨?_, ?_, ?_⟩
  · simp only [dropGroup, BitVec.toNat_sub, BitVec.toNat_ofNat, hh.workbits]
    omega
  · simp only [dropGroup, BitVec.toNat_ushiftRight, hh.work, Nat.shiftRight_eq_div_pow]
  · rw [Nat.div_lt_iff_lt_mul (Nat.two_pow_pos b), ← pow_add, Nat.sub_add_cancel hb]
    exact hh.below

/-! ### The loops -/

theorem drain_of_lt {b : Nat} {h : Hidden} (fuel : Nat) (hlt : h.workbits.toNat < b) : drain b fuel h = ([], h) := by
  cases fuel with
  | zero => rfl
  | succ fuel => rw [drain, if_neg (Nat.not_le.mpr hlt)]

theorem drain_of_le {b : Nat} {h : Hidden} (fuel : Nat) (hle : b ≤ h.workbits.toNat) :
    drain b (fuel + 1) h = (lowGroup b h :: (drain b fuel (dropGroup b h)).1, (drain b fuel (dropGroup b h)).2) := by
  rw [drain, if_pos hle]

/-- Of `count` bits of `value`, all full groups are emitted as `out`, and the window `g` holds the bits above
them (R95). -/
structure Emits (b count value : Nat) (out : List Byte) (g : Hidden) : Prop where
  symbols : out = (leadingGroups b (count / b) value).map (BitVec.ofNat 8)
  left : g.Holds (count % b) (value / 2 ^ (b * (count / b)))

theorem Emits.of_lt {b c v : Nat} {h : Hidden} (hh : h.Holds c v) (hlt : c < b) : Emits b c v [] h where
  symbols := by simp [Nat.div_eq_of_lt hlt]
  left := by simpa [Nat.div_eq_of_lt hlt, Nat.mod_eq_of_lt hlt] using hh

/-- The inner loop emits one full group a round, and `c / b` rounds of fuel are enough (R95, R96). -/
theorem drain_emits {b fuel : Nat} {h : Hidden} {c v : Nat} (hb : 1 ≤ b) (hb8 : b ≤ 8) (hh : h.Holds c v)
    (hfuel : c < b * (fuel + 1)) : Emits b c v (drain b fuel h).1 (drain b fuel h).2 := by
  induction fuel generalizing h c v with
  | zero =>
    have hlt : c < b := by simpa using hfuel
    rw [drain_of_lt 0 (hh.workbits ▸ hlt)]
    exact .of_lt hh hlt
  | succ fuel ih =>
    obtain hlt | hle := Nat.lt_or_ge c b
    · rw [drain_of_lt _ (hh.workbits ▸ hlt)]
      exact .of_lt hh hlt
    · obtain ⟨hsym, hleft⟩ := ih (dropGroup_holds hh hle) (by rw [Nat.mul_succ] at hfuel; omega)
      have hdiv : c / b = (c - b) / b + 1 := Nat.div_eq_sub_div hb hle
      have hmod : c % b = (c - b) % b := Nat.mod_eq_sub_mod hle
      have hvalue : v / 2 ^ (b * ((c - b) / b + 1)) = v / 2 ^ b / 2 ^ (b * ((c - b) / b)) := by
        rw [Nat.div_div_eq_div_mul, ← pow_add, Nat.add_comm b, Nat.mul_succ]
      rw [drain_of_le _ (hh.workbits ▸ hle)]
      refine ⟨?_, ?_⟩
      · rw [hdiv, leadingGroups_succ, hsym, lowGroup_eq hh hb8, List.map_cons]
      · rw [hdiv, hmod, hvalue]
        exact hleft

/-- What is emitted before and after more bits come in is what the whole would emit at once. -/
theorem Emits.append {b c v d w : Nat} {out out' : List Byte} {h g : Hidden} (hb : 1 ≤ b)
    (hfirst : Emits b c v out h)
    (hrest : Emits b (c % b + d) (v / 2 ^ (b * (c / b)) + 2 ^ (c % b) * w) out' g) :
    Emits b (c + d) (v + 2 ^ c * w) (out ++ out') g := by
  have hcount : c + d = b * (c / b) + (c % b + d) := by have := Nat.div_add_mod c b; omega
  have hdiv : (c + d) / b = c / b + (c % b + d) / b := by rw [hcount, Nat.mul_add_div hb]
  have hmod : (c + d) % b = (c % b + d) % b := by rw [Nat.mod_add_mod]
  have hpow : 2 ^ c * w = 2 ^ (b * (c / b)) * (2 ^ (c % b) * w) := by
    rw [← Nat.mul_assoc, ← pow_add, Nat.div_add_mod]
  have hvalue : (v + 2 ^ c * w) / 2 ^ (b * (c / b)) = v / 2 ^ (b * (c / b)) + 2 ^ (c % b) * w := by
    rw [hpow, Nat.add_mul_div_left _ _ (Nat.two_pow_pos _)]
  refine ⟨?_, ?_⟩
  · rw [hdiv, leadingGroups_add, hvalue, hpow, leadingGroups_add_high, List.map_append, hfirst.symbols, hrest.symbols]
  · rw [hdiv, hmod, Nat.mul_add, pow_add, ← Nat.div_div_eq_div_mul, hvalue]
    exact hrest.left

theorem streamGroups_emits {a b : Nat} (ha8 : a ≤ 8) (hb : 1 ≤ b) (hb8 : b ≤ 8) {src : List Byte}
    (hsrc : ∀ x ∈ src, x.toNat < 2 ^ a) {h : Hidden} {c v : Nat} (hh : h.Holds c v) (hc : c < b) :
    Emits b (c + src.length * a) (v + 2 ^ c * streamValue a (src.map BitVec.toNat)) (streamGroups a b src h).1
      (streamGroups a b src h).2 := by
  induction src generalizing h c v with
  | nil => simpa [streamGroups, streamValue] using Emits.of_lt hh hc
  | cons x rest ih =>
    obtain ⟨hx, hrest⟩ := List.forall_mem_cons.mp hsrc
    have hdrain := drain_emits (fuel := 15) hb hb8 (absorb_holds hh hx (by omega)) (by omega)
    have htotal := hdrain.append hb (ih hrest hdrain.left (Nat.mod_lt _ hb))
    have hcount : c + (rest.length + 1) * a = c + a + rest.length * a := by ring
    have hvalue (w : Nat) : v + 2 ^ c * (x.toNat + 2 ^ a * w) = v + 2 ^ c * x.toNat + 2 ^ (c + a) * w := by ring
    rw [List.length_cons, hcount, List.map_cons, streamValue, hvalue]
    exact htotal

/-- From acceptance on (R150), the window emits the full groups of V and holds the L mod b leftover bits. -/
theorem streamGroups_cleared_emits {a b : Nat} (ha8 : a ≤ 8) (hb : 1 ≤ b) (hb8 : b ≤ 8) {src : List Byte}
    (hsrc : ∀ x ∈ src, x.toNat < 2 ^ a) :
    Emits b (src.length * a) (streamValue a (src.map BitVec.toNat)) (streamGroups a b src Hidden.cleared).1
      (streamGroups a b src Hidden.cleared).2 := by
  simpa using streamGroups_emits ha8 hb hb8 hsrc cleared_holds hb

theorem emitPartial_symbols {b : Nat} (p : Bool) {h : Hidden} {c v : Nat} (hh : h.Holds c v) (hb8 : b ≤ 8) :
    (emitPartial b p h).1 = (leadingGroups b (if p = true ∧ c ≠ 0 then 1 else 0) v).map (BitVec.ofNat 8) := by
  rw [emitPartial, hh.workbits]
  simp only [Nat.pos_iff_ne_zero]
  split
  · simp [leadingGroups_succ, lowGroup_eq hh hb8]
  · simp

/-- Settles O39: the full groups leave the window in the loops, and the partial symbol is the group left in it. -/
theorem streamingEqualsConv : Obligations.StreamingEqualsConv := by
  intro a b p src ⟨_, ha8, hb, hb8⟩ hsrc
  obtain ⟨hsym, hleft⟩ := streamGroups_cleared_emits ha8 hb hb8 hsrc
  rw [streamBytes, streamRun, hsym, emitPartial_symbols p hleft hb8, ← List.map_append, convBytes,
    convSymbols_eq_append, List.length_map]

/-! ### The bound on the window -/

/-- A multiple of `a` leaves a multiple of gcd(a, b) on division by `b` (R96). -/
theorem mod_le_sub_gcd (n a : Nat) {b : Nat} (hb : 1 ≤ b) : n * a % b ≤ b - Nat.gcd a b := by
  have hlt : n * a % b < b := Nat.mod_lt _ hb
  have hdvd : Nat.gcd a b ∣ n * a % b :=
    (Nat.dvd_mod_iff (Nat.gcd_dvd_right a b)).mpr ((Nat.gcd_dvd_left a b).mul_left n)
  have hgap : Nat.gcd a b ≤ b - n * a % b := Nat.le_of_dvd (by omega) (Nat.dvd_sub (Nat.gcd_dvd_right a b) hdvd)
  omega

/-- The bound is 14, met by the widths 7 and 8; equal widths leave nothing in the window (R96). -/
theorem widths_sub_gcd_le {a b : Nat} (ha : 1 ≤ a) (ha8 : a ≤ 8) (hb8 : b ≤ 8) : b - Nat.gcd a b + a ≤ 14 := by
  have hpos : 0 < Nat.gcd a b := Nat.gcd_pos_of_pos_left b ha
  obtain rfl | hne := eq_or_ne a b
  · rw [Nat.gcd_self]
    omega
  · omega

/-- Settles O40: the window holds the leftover of whole symbols, and `absorb_holds` adds one more. -/
theorem windowNeverOverflows : Obligations.WindowNeverOverflows := by
  intro a b src x ⟨ha, ha8, hb, hb8⟩ hsrc hx h
  have hleft : h.Holds _ _ := (streamGroups_cleared_emits ha8 hb hb8 hsrc).left
  have hbound := mod_le_sub_gcd src.length a hb
  have htotal := widths_sub_gcd_le (b := b) ha ha8 hb8
  obtain ⟨hbits, hwork, hbelow⟩ := absorb_holds hleft hx (by omega)
  rw [hbits, hwork, hleft.workbits, hleft.work, Nat.mul_comm x.toNat]
  exact ⟨hbound, hleft.below, rfl, by omega, rfl, hbelow⟩

end Sys2Proof.Machine
end

section
/-! PROOFS. The Complete step of CONV (R94): where its checks pass it is `finish` on its destination, which is a
completion (`finish_completed`), and the output it writes is Conv of the source as BUF holds it. -/

namespace Sys2Proof.Machine

/-! ### A step that passes its checks completes -/

theorem completeWith_of_below {r : Region} {limit : Nat} {output : List Byte → List Byte} {s : State}
    (h : sourceBelow limit s) : completeWith (.ok r) limit output s = finish r (output (readSource s)) s := by
  obtain ⟨_, hplan, -⟩ | ⟨_, -, ⟨x, hx, hge⟩, -⟩ | ⟨_, hplan, -, heq⟩ :=
    completeWith_cases (.ok r) limit output s
  · cases hplan
  · exact absurd ((readSource_below limit s).mpr h x hx) (Nat.not_lt.mpr hge)
  · cases hplan
    exact heq

/-- Writing an output that fills its destination in BUF is a fault-free completion (R64). -/
theorem finish_completed {r : Region} {out : List Byte} {f : Nat → Byte} {s : State} (hfits : fits r.base r.len s)
    (hlen : out.length = r.len) (hout : ∀ k (hk : k < out.length), out[k] = f k) :
    Completed r f s (finish r out s) where
  output k hk := (byteAt_writeBytes_inside s.resetCount s.buf r.base out (hlen ▸ hk)).trans (hout k _)
  bytes := finish_sameOutside s hlen
  dstlen := by
    have hsize := (bufSize_bounds s).2
    unfold fits at hfits
    rw [finish_dstlen, BitVec.toNat_ofNat, Nat.mod_eq_of_lt (by omega)]
  busy := statusCompleted_busy s.status
  done := statusCompleted_done s.status
  status _ hi := statusCompleted_high s.status hi
  rest := rfl

/-! ### CONV -/

/-- V of the source bytes in BUF, as the sum R92 gives and as Conv reads it. -/
theorem streamValue_readSource (a : Nat) (s : State) :
    streamValue a ((readSource s).map BitVec.toNat) = sourceStream a s := by
  rw [readSource, List.map_map, streamValue_map_range]
  rfl

theorem convPlan_of_legal {a b : Nat} {s : State} (hw : 1 ≤ a ∧ a ≤ 8 ∧ 1 ≤ b ∧ b ≤ 8)
    (hsrc : fits s.srcaddr.toNat s.srclen.toNat s)
    (hdst : fits s.dstaddr.toNat (outLen s.srclen.toNat a b true) s)
    (hdisjoint : (sourceRegion s).overlaps (convRegion a b s) = false) :
    convPlan a b s = .ok (convRegion a b s) := by
  have hwidths : widthsLegal a b = true := decide_eq_true hw
  have hsrcIn : (sourceRegion s).inBounds s.bufSize = true := (inBounds_iff _ s).mpr hsrc
  have hdstIn : (convRegion a b s).inBounds s.bufSize = true := (inBounds_iff _ s).mpr hdst
  simp [convPlan, hwidths, hsrcIn, hdstIn, hdisjoint]

/-- Settles O21: the checks pass, so Complete finishes with Conv of the source. -/
theorem convCompletes : Obligations.ConvCompletes := by
  intro a b s hengine ha ha8 hb hb8 hsrc hdst hdisjoint hbelow
  have hplan := convPlan_of_legal ⟨ha, ha8, hb, hb8⟩ hsrc hdst hdisjoint
  have hstep : convComplete a b s = finish (convRegion a b s) (convBytes a b true (readSource s)) s := by
    rw [convComplete, hplan, completeWith_of_below hbelow]
  refine ⟨_, (dataCommand_engine _ _ hengine).trans (congrArg _ hstep), ?_⟩
  refine finish_completed hdst (by simp) fun k hk => ?_
  rw [getElem_convBytes, streamValue_readSource, outSymbol]

end Sys2Proof.Machine
end

section
/-! PROOFS. CONVIP (R112) and the symbols it shares with CONV (R114). -/

namespace Sys2Proof.Machine

/-! ### CONVIP -/

theorem convipPlan_of_legal {a b : Nat} {p : Bool} {s : State} (hw : 1 ≤ a ∧ a ≤ 8 ∧ 1 ≤ b ∧ b ≤ 8)
    (hsrc : fits s.srcaddr.toNat s.srclen.toNat s)
    (hdst : fits s.srcaddr.toNat (outLen s.srclen.toNat a b p) s) :
    convipPlan a b p s = .ok (convipRegion a b p s) := by
  have hwidths : widthsLegal a b = true := decide_eq_true hw
  have hsrcIn : (sourceRegion s).inBounds s.bufSize = true := (inBounds_iff _ s).mpr hsrc
  have hdstIn : (convipRegion a b p s).inBounds s.bufSize = true := (inBounds_iff _ s).mpr hdst
  simp [convipPlan, hwidths, hsrcIn, hdstIn]

/-- Settles O22: the checks pass, so Complete finishes with Conv of the source. -/
theorem convipCompletes : Obligations.ConvipCompletes := by
  intro a b p s hengine ha ha8 hb hb8 hsrc hdst hbelow
  have hplan := convipPlan_of_legal ⟨ha, ha8, hb, hb8⟩ hsrc hdst
  have hstep : convipComplete a b p s = finish (convipRegion a b p s) (convBytes a b p (readSource s)) s := by
    rw [convipComplete, hplan, completeWith_of_below hbelow]
  refine ⟨_, (dataCommand_engine _ _ hengine).trans (congrArg _ hstep), ?_⟩
  refine finish_completed hdst (by simp) fun k hk => ?_
  rw [getElem_convBytes, streamValue_readSource, outSymbol]

/-! ### A completion without fault has passed its checks -/

theorem completeWith_clean {plan : Except ErrCode Region} {limit : Nat} {output : List Byte → List Byte} {s : State}
    (herr : (completeWith plan limit output s).err = false) : (∃ r, plan = .ok r) ∧ sourceBelow limit s := by
  obtain ⟨c, -, h⟩ | ⟨r, -, -, h⟩ | ⟨r, hr, hbelow, -⟩ := completeWith_cases plan limit output s
  · simp [h, State.err] at herr
  · simp [h, State.err] at herr
  · exact ⟨⟨r, hr⟩, (readSource_below limit s).mp hbelow⟩

/-- Output symbol k of Conv on the source as BUF holds it at acceptance (R92). -/
def sourceSymbol (a b : Nat) (s : State) (k : Nat) : Byte := BitVec.ofNat 8 (outSymbol (sourceStream a s) b k)

/-- CONV that ends without fault has completed (R94). -/
theorem conv_completed {a b : Nat} {s t : State} (hengine : s.agent = .engine)
    (hexec : exec (.conv a b) s = .next t) (herr : t.err = false) :
    Completed (convRegion a b s) (sourceSymbol a b s) s t := by
  obtain rfl := eq_of_dataCommand_engine hengine hexec
  obtain ⟨⟨r, hplan⟩, hbelow⟩ := completeWith_clean herr
  obtain ⟨⟨ha, ha8, hb, hb8⟩, rfl, hsrc, hdst, hdisjoint⟩ := convPlan_ok hplan
  obtain ⟨t, hnext, hcompleted⟩ := convCompletes a b s hengine ha ha8 hb hb8 hsrc hdst hdisjoint hbelow
  rwa [eq_of_dataCommand_engine hengine hnext]

/-- CONVIP that ends without fault had legal widths and a source in range, and has completed (R112). -/
theorem convip_completed {a b : Nat} {p : Bool} {s t : State} (hengine : s.agent = .engine)
    (hexec : exec (.convip a b p) s = .next t) (herr : t.err = false) :
    (1 ≤ a ∧ a ≤ 8 ∧ 1 ≤ b ∧ b ≤ 8) ∧ sourceBelow (2 ^ a) s ∧
      Completed (convipRegion a b p s) (sourceSymbol a b s) s t := by
  obtain rfl := eq_of_dataCommand_engine hengine hexec
  obtain ⟨⟨r, hplan⟩, hbelow⟩ := completeWith_clean herr
  obtain ⟨⟨ha, ha8, hb, hb8⟩, rfl, hsrc, hdst⟩ := convipPlan_ok hplan
  obtain ⟨t, hnext, hcompleted⟩ := convipCompletes a b p s hengine ha ha8 hb hb8 hsrc hdst hbelow
  refine ⟨⟨ha, ha8, hb, hb8⟩, hbelow, ?_⟩
  rwa [eq_of_dataCommand_engine hengine hnext]

/-! ### CONVIP and CONV -/

/-- P decides the count only, by the partial trailing symbol (R91, R114). -/
theorem outLen_true_eq_add (n a b : Nat) (p : Bool) :
    outLen n a b true = outLen n a b p + (if p = false ∧ n * a % b ≠ 0 then 1 else 0) := by
  cases p <;> simp [outLen]

/-- Settles O41: both completions hold the symbols of one source, and P decides the count. -/
theorem convipMatchesConv : Obligations.ConvipMatchesConv := by
  intro a b p s t u hengine hconv ht hconvip hu
  have hT := conv_completed hengine hconv ht
  obtain ⟨-, -, hU⟩ := convip_completed hengine hconvip hu
  have hcount := outLen_true_eq_add s.srclen.toNat a b p
  refine ⟨fun k hk => ?_, ?_⟩
  · have hkU : k < outLen s.srclen.toNat a b p := hk.trans_eq hU.dstlen
    have hkT : k < outLen s.srclen.toNat a b true := by omega
    exact (hU.output k hkU).trans (hT.output k hkT).symm
  · rw [hT.dstlen, hU.dstlen]
    exact hcount

end Sys2Proof.Machine
end

section
/-! PROOFS. The ways to carry out CONVIP in finer steps (R116, R117, R118). Each writes output symbols over the source
one at a time; `Overwritten` says which of them stand in the buffer. A write is right as soon as the bits of its symbol
are known: from the symbols read so far (`outSymbol_readStream`) or from the buffer itself
(`bufferSymbol_eq_sourceSymbol`). -/

namespace Sys2Proof.Machine

/-! ### A buffer with some output symbols written -/

/-- Of BUF as it was at acceptance, the positions in `done` hold their output symbol and every other byte is as it
was. -/
structure Overwritten (a b : Nat) (s : State) (done : List Nat) (m : Memory) : Prop where
  output : ∀ k ∈ done, Memory.byteAt s.resetCount m (s.srcaddr.toNat + k) = sourceSymbol a b s k
  kept : ∀ x, (∀ k ∈ done, x ≠ s.srcaddr.toNat + k) → Memory.byteAt s.resetCount m x = readByte s x

theorem Overwritten.start (a b : Nat) (s : State) : Overwritten a b s [] s.buf where
  output := by simp
  kept _ _ := rfl

theorem Overwritten.source {a b : Nat} {s : State} {done : List Nat} {m : Memory} (h : Overwritten a b s done m)
    {i : Nat} (hi : i ∉ done) :
    Memory.byteAt s.resetCount m (s.srcaddr.toNat + i) = readByte s (s.srcaddr.toNat + i) := by
  refine h.kept _ fun k hk heq => hi ?_
  rwa [Nat.add_left_cancel heq]

theorem Overwritten.write {a b : Nat} {s : State} {done : List Nat} {m : Memory} (h : Overwritten a b s done m)
    (k : Nat) :
    Overwritten a b s (k :: done) (Memory.write m (s.srcaddr.toNat + k) (sourceSymbol a b s k)) where
  output i hi := by
    obtain rfl | hne := eq_or_ne i k
    · exact byteAt_write_same _ _ _ _
    · rw [byteAt_write_ne _ _ _ (by omega)]
      exact h.output i (List.mem_of_ne_of_mem hne hi)
  kept x hx := by
    rw [byteAt_write_ne _ _ _ (hx k List.mem_cons_self)]
    exact h.kept x fun i hi => hx i (List.mem_cons_of_mem k hi)

/-- A buffer in which the m output symbols are written is the buffer CONVIP leaves (R114). -/
theorem Overwritten.agrees {a b : Nat} {p : Bool} {s t : State} {done : List Nat} {m : Memory}
    (h : Overwritten a b s done m) (hdone : ∀ k, k ∈ done ↔ k < outLen s.srclen.toNat a b p)
    (ht : Completed (convipRegion a b p s) (sourceSymbol a b s) s t) (x : Nat) :
    Memory.byteAt s.resetCount m x = readByte t x := by
  by_cases hx : s.srcaddr.toNat ≤ x ∧ x < s.srcaddr.toNat + outLen s.srclen.toNat a b p
  · obtain ⟨k, rfl⟩ := Nat.exists_eq_add_of_le hx.1
    have hk : k < outLen s.srclen.toNat a b p := Nat.lt_of_add_lt_add_left hx.2
    exact (h.output k ((hdone k).mpr hk)).trans (ht.output k hk).symm
  · have hout : ∀ k ∈ done, x ≠ s.srcaddr.toNat + k := by
      rintro k hk rfl
      exact hx ⟨Nat.le_add_right _ _, Nat.add_lt_add_left ((hdone k).mp hk) _⟩
    exact (h.kept x hout).trans (ht.bytes x hx).symm

/-! ### The stream of the symbols read so far -/

/-- The value of the first c source symbols. -/
def readStream (a : Nat) (s : State) (c : Nat) : Nat :=
  ∑ i ∈ Finset.range c, (readByte s (s.srcaddr.toNat + i)).toNat * 2 ^ (a * i)

theorem readStream_all (a : Nat) (s : State) : readStream a s s.srclen.toNat = sourceStream a s := rfl

theorem readStream_succ (a : Nat) (s : State) (c : Nat) :
    readStream a s (c + 1) = readStream a s c + 2 ^ (a * c) * (readByte s (s.srcaddr.toNat + c)).toNat := by
  rw [readStream, Finset.sum_range_succ, Nat.mul_comm _ (2 ^ (a * c))]
  rfl

/-- Source symbols not yet read lie above the bits of those read. -/
theorem readStream_add (a : Nat) (s : State) (c d : Nat) :
    ∃ w, readStream a s (c + d) = readStream a s c + 2 ^ (a * c) * w := by
  induction d with
  | zero => exact ⟨0, rfl⟩
  | succ d ih =>
    obtain ⟨w, hw⟩ := ih
    refine ⟨w + 2 ^ (a * d) * (readByte s (s.srcaddr.toNat + (c + d))).toNat, ?_⟩
    rw [← Nat.add_assoc, readStream_succ, hw, Nat.mul_add a, pow_add]
    ring

theorem outSymbol_add_high (v w : Nat) {b k d : Nat} (h : (k + 1) * b ≤ d) :
    outSymbol (v + 2 ^ d * w) b k = outSymbol v b k := by
  obtain ⟨e, rfl⟩ := Nat.exists_eq_add_of_le h
  have hsplit : 2 ^ ((k + 1) * b + e) * w = 2 ^ (b * k) * (2 ^ b * (2 ^ e * w)) := by ring
  rw [outSymbol, outSymbol, hsplit, Nat.add_mul_div_left _ _ (Nat.two_pow_pos _), Nat.add_mul_mod_self_left]

/-- Once its bits have been read, an output symbol is known (R116). -/
theorem outSymbol_readStream {a b c k : Nat} {s : State} (hc : c ≤ s.srclen.toNat)
    (h : c = s.srclen.toNat ∨ (k + 1) * b ≤ c * a) :
    outSymbol (readStream a s c) b k = outSymbol (sourceStream a s) b k := by
  obtain rfl | hbits := h
  · rfl
  · obtain ⟨d, hd⟩ := Nat.exists_eq_add_of_le hc
    obtain ⟨w, hw⟩ := readStream_add a s c d
    rw [← readStream_all, hd, hw, outSymbol_add_high _ _ (by rwa [Nat.mul_comm a])]

theorem readStream_lt {a c : Nat} {s : State} (ha : 1 ≤ a) (hbelow : sourceBelow (2 ^ a) s)
    (hc : c ≤ s.srclen.toNat) : readStream a s c < 2 ^ (a * c) := by
  have hlt := streamValue_lt (src := (List.range c).map fun i => (readByte s (s.srcaddr.toNat + i)).toNat) ha
    (by simpa using fun i hi => hbelow i (hi.trans_le hc))
  rwa [streamValue_map_range, List.length_map, List.length_range, Nat.mul_comm c] at hlt

/-! ### A schedule under the hazard rule -/

/-- A schedule (R116) after c reads and the writes of `written`: what was read is the source as it was, for a
position of the source is written only after it has been read. -/
structure MidSchedule (a b : Nat) (p : Bool) (s : State) (c : Nat) (written : List Nat) (ms : MicroState) : Prop where
  reads : c ≤ s.srclen.toNat
  got : ms.got = (List.range c).map fun i => readByte s (s.srcaddr.toNat + i)
  order : ∀ k ∈ written, k < outLen s.srclen.toNat a b p ∧ (k < s.srclen.toNat → k < c)
  buf : Overwritten a b s written ms.buf

theorem MidSchedule.start (a b : Nat) (p : Bool) (s : State) : MidSchedule a b p s 0 [] ⟨s.buf, []⟩ where
  reads := Nat.zero_le _
  got := rfl
  order := by simp
  buf := .start a b s

section
variable {a b c : Nat} {p : Bool} {s : State} {written : List Nat} {ms : MicroState}

theorem MidSchedule.streamValue_got (h : MidSchedule a b p s c written ms) :
    streamValue a (ms.got.map BitVec.toNat) = readStream a s c := by
  rw [h.got, List.map_map, streamValue_map_range]
  rfl

theorem MidSchedule.read (h : MidSchedule a b p s c written ms) (hc : c < s.srclen.toNat) :
    MidSchedule a b p s (c + 1) written (microStep a b s.srcaddr.toNat s.resetCount .read ms) where
  reads := hc
  got := by
    have hlen : ms.got.length = c := by simp [h.got]
    have hunwritten : c ∉ written := fun hmem => Nat.lt_irrefl c ((h.order c hmem).2 hc)
    rw [microStep, hlen, h.buf.source hunwritten, h.got, List.range_succ, List.map_append]
    rfl
  order k hk := ⟨(h.order k hk).1, fun hkn => Nat.lt_succ_of_lt ((h.order k hk).2 hkn)⟩
  buf := h.buf

theorem MidSchedule.write {k : Nat} (h : MidSchedule a b p s c written ms)
    (hallowed : microAllowed a b s.srclen.toNat (outLen s.srclen.toNat a b p) c (.write k) = true) :
    MidSchedule a b p s c (k :: written) (microStep a b s.srcaddr.toNat s.resetCount (.write k) ms) := by
  obtain ⟨hk, hread, hbits⟩ := of_decide_eq_true hallowed
  refine ⟨h.reads, h.got, ?_, ?_⟩
  · exact List.forall_mem_cons.mpr ⟨⟨hk, hread⟩, h.order⟩
  · simp only [microStep, h.streamValue_got, outSymbol_readStream h.reads hbits]
    exact h.buf.write k

/-- A schedule that is allowed writes every symbol it names, and nothing else anew. -/
theorem MidSchedule.run {sched : List MicroStep} (h : MidSchedule a b p s c written ms)
    (hallowed : scheduleAllowed a b s.srclen.toNat (outLen s.srclen.toNat a b p) c sched = true) :
    ∃ c' written', (∀ k, k ∈ written ∨ .write k ∈ sched → k ∈ written') ∧
      MidSchedule a b p s c' written'
        (sched.foldl (fun ms x => microStep a b s.srcaddr.toNat s.resetCount x ms) ms) := by
  induction sched generalizing c written ms with
  | nil => exact ⟨c, written, by simp, h⟩
  | cons x rest ih =>
    cases x with
    | read =>
      obtain ⟨hread, hrest⟩ := Bool.and_eq_true_iff.mp hallowed
      obtain ⟨c', written', hmem, hrun⟩ := ih (h.read (of_decide_eq_true hread)) hrest
      exact ⟨c', written', by simpa using hmem, hrun⟩
    | write j =>
      obtain ⟨hwrite, hrest⟩ := Bool.and_eq_true_iff.mp hallowed
      obtain ⟨c', written', hmem, hrun⟩ := ih (h.write hwrite) hrest
      refine ⟨c', written', fun k hk => hmem k ?_, hrun⟩
      simpa [or_assoc, or_left_comm] using hk

end

/-- Settles O42: the schedule ends with the m output symbols written. -/
theorem hazardScheduleAgrees : Obligations.HazardScheduleAgrees := by
  intro a b p s t sched hengine hexec herr hallowed hwrites
  obtain ⟨-, -, hcompleted⟩ := convip_completed hengine hexec herr
  obtain ⟨c, written, hmem, hrun⟩ := (MidSchedule.start a b p s).run hallowed
  exact hrun.buf.agrees (fun k => ⟨fun hk => (hrun.order k hk).1, fun hk => hmem k (.inr (hwrites k hk))⟩) hcompleted

/-! ### The recursive strategy -/

/-- The symbols held in PEND after k levels, the last on top (R33, R117). -/
def heldSymbols (a b : Nat) (s : State) (k : Nat) : List Byte := (List.range k).reverse.map (sourceSymbol a b s)

@[simp] theorem length_heldSymbols (a b : Nat) (s : State) (k : Nat) : (heldSymbols a b s k).length = k := by
  simp [heldSymbols]

theorem heldSymbols_succ (a b : Nat) (s : State) (k : Nat) :
    heldSymbols a b s (k + 1) = sourceSymbol a b s k :: heldSymbols a b s k := by
  simp [heldSymbols, List.range_succ]

/-- The writes on the way back put every held symbol in its place. -/
theorem Overwritten.unwind {a b k : Nat} {s : State} {done : List Nat} {m : Memory} (h : Overwritten a b s done m) :
    Overwritten a b s (List.range k ++ done) (unwind s.srcaddr.toNat (heldSymbols a b s k) m) := by
  induction k generalizing done m with
  | zero => simpa [heldSymbols, Machine.unwind] using h
  | succ k ih =>
    rw [List.range_succ, List.append_assoc, heldSymbols_succ, Machine.unwind, length_heldSymbols]
    exact ih (h.write k)

/-- The descent (R117) before level k, or within it: the window holds the bits of the symbols read that are above the
k symbols held in PEND. -/
structure MidDescent (a b : Nat) (s : State) (k : Nat) (h : Hidden) : Prop where
  reads : h.srcidx.toNat ≤ s.srclen.toNat
  window : h.Holds (h.srcidx.toNat * a - b * k) (readStream a s h.srcidx.toNat / 2 ^ (b * k))
  held : h.srcidx.toNat < s.srclen.toNat → b * k ≤ h.srcidx.toNat * a
  pend : h.pend = heldSymbols a b s k

theorem MidDescent.start (a b : Nat) (s : State) : MidDescent a b s 0 Hidden.cleared where
  reads := Nat.zero_le _
  window := by simpa [Hidden.cleared, readStream] using cleared_holds
  held _ := Nat.zero_le _
  pend := rfl

theorem absorb_workbits {a : Nat} (x : Byte) {h : Hidden} (hroom : h.workbits.toNat + a ≤ 15) :
    (absorb a x h).workbits.toNat = h.workbits.toNat + a := by
  simp only [absorb, BitVec.toNat_add, BitVec.toNat_ofNat]
  omega

/-- The symbol leaves the window, or the window ends where it holds less than a symbol (R117). -/
theorem holdSymbol_holds {b : Nat} {h : Hidden} {c v : Nat} (hh : h.Holds c v) :
    (holdSymbol b h).Holds (c - b) (v / 2 ^ b) := by
  obtain hlt | hle := Nat.lt_or_ge c b
  · have hzero : v / 2 ^ b = 0 := Nat.div_eq_of_lt (hh.below.trans (Nat.pow_lt_pow_right (by omega) hlt))
    rw [Nat.sub_eq_zero_of_le hlt.le, hzero]
    refine ⟨?_, ?_, Nat.one_pos⟩
    · simp [holdSymbol, hh.workbits, hlt]
    · simp [holdSymbol, dropGroup, hh.work, Nat.shiftRight_eq_div_pow, hzero]
  · obtain ⟨hbits, hwork, hbelow⟩ := dropGroup_holds hh hle
    refine ⟨?_, hwork, hbelow⟩
    rw [← hbits, holdSymbol, hh.workbits, if_neg (Nat.not_lt.mpr hle)]
    rfl

section
variable {a b k : Nat} {s : State} {h : Hidden}

theorem MidDescent.absorb (hh : MidDescent a b s k h) (hbelow : sourceBelow (2 ^ a) s)
    (hread : h.srcidx.toNat < s.srclen.toNat) (hroom : h.workbits.toNat + a ≤ 15) :
    MidDescent a b s k (absorb a (readByte s (s.srcaddr.toNat + h.srcidx.toNat)) h) := by
  have hidx : (h.srcidx + 1).toNat = h.srcidx.toNat + 1 := by
    have := s.srclen.isLt
    rw [BitVec.toNat_add_of_lt (by simp; omega)]
    rfl
  have hheld := hh.held hread
  obtain ⟨e, he⟩ := Nat.exists_eq_add_of_le hheld
  have hcount : h.srcidx.toNat * a - b * k = e := by omega
  have hsucc : (h.srcidx.toNat + 1) * a - b * k = e + a := by rw [Nat.succ_mul]; omega
  have hvalue : readStream a s (h.srcidx.toNat + 1) / 2 ^ (b * k) =
      readStream a s h.srcidx.toNat / 2 ^ (b * k) +
        2 ^ e * (readByte s (s.srcaddr.toNat + h.srcidx.toNat)).toNat := by
    rw [readStream_succ, Nat.mul_comm a, he, pow_add, Nat.mul_assoc, Nat.add_mul_div_left _ _ (Nat.two_pow_pos _)]
  have hwindow := hh.window
  rw [hcount] at hwindow
  refine ⟨?_, ?_, fun _ => ?_, hh.pend⟩ <;> rw [absorb_srcidx, hidx]
  · exact hread
  · rw [hsucc, hvalue]
    exact absorb_holds hwindow (hbelow _ hread) (hwindow.workbits ▸ hroom)
  · rw [Nat.succ_mul]
    omega

/-- The gathering loop ends with a full group in the window or with the source read. -/
theorem MidDescent.gather {fuel : Nat} (hh : MidDescent a b s k h) (hbelow : sourceBelow (2 ^ a) s)
    (ha : 1 ≤ a) (ha8 : a ≤ 8) (hb8 : b ≤ 8) (hfuel : b ≤ h.workbits.toNat + fuel) :
    ∃ g, gather a b s.srclen.toNat (fun i => readByte s (s.srcaddr.toNat + i)) fuel h = g ∧
      MidDescent a b s k g ∧ (b ≤ g.workbits.toNat ∨ g.srcidx.toNat = s.srclen.toNat) := by
  induction fuel generalizing h with
  | zero => exact ⟨h, rfl, hh, .inl hfuel⟩
  | succ fuel ih =>
    rw [Machine.gather]
    split
    next hmore =>
      obtain ⟨hshort, hread⟩ := hmore
      have hnext := hh.absorb hbelow hread (by omega)
      refine ih hnext ?_
      rw [absorb_workbits _ (by omega)]
      omega
    next hend =>
      have hread := hh.reads
      exact ⟨h, rfl, hh, by omega⟩

theorem MidDescent.holdSymbol (hh : MidDescent a b s k h) (hb : 1 ≤ b) (hb8 : b ≤ 8)
    (hknown : b ≤ h.workbits.toNat ∨ h.srcidx.toNat = s.srclen.toNat) :
    MidDescent a b s (k + 1) (holdSymbol b h) := by
  have hbits : b ≤ h.workbits.toNat → b * (k + 1) ≤ h.srcidx.toNat * a := by
    rw [hh.window.workbits, Nat.mul_succ]
    omega
  refine ⟨hh.reads, ?_, fun hread => hbits (hknown.resolve_right hread.ne), ?_⟩
  · have hwindow := holdSymbol_holds (b := b) hh.window
    rwa [Nat.div_div_eq_div_mul, ← pow_add, Nat.sub_sub, ← Nat.mul_succ] at hwindow
  · have hread : h.srcidx.toNat = s.srclen.toNat ∨ (k + 1) * b ≤ h.srcidx.toNat * a := by
      rw [Nat.mul_comm (k + 1)]
      exact hknown.symm.imp_right hbits
    have hsymbol : lowGroup b h = sourceSymbol a b s k := by
      rw [lowGroup_eq hh.window hb8, sourceSymbol, ← outSymbol_readStream hh.reads hread, outSymbol]
    rw [heldSymbols_succ, ← hsymbol, ← hh.pend]
    rfl

theorem MidDescent.descend {levels : Nat} (hh : MidDescent a b s k h) (hbelow : sourceBelow (2 ^ a) s)
    (hw : 1 ≤ a ∧ a ≤ 8 ∧ 1 ≤ b ∧ b ≤ 8) :
    MidDescent a b s (k + levels)
      (descend a b s.srclen.toNat (fun i => readByte s (s.srcaddr.toNat + i)) levels h) := by
  induction levels generalizing k h with
  | zero => exact hh
  | succ levels ih =>
    obtain ⟨ha, ha8, hb, hb8⟩ := hw
    obtain ⟨g, hg, hgathered, hknown⟩ := hh.gather (fuel := 8) hbelow ha ha8 hb8 (by omega)
    rw [Machine.descend, hg, Nat.add_comm levels, ← Nat.add_assoc]
    exact ih (hgathered.holdSymbol hb hb8 hknown)

end

/-- Settles O43: the descent holds the m output symbols in PEND, and the way back writes them. -/
theorem recursiveStrategyAgrees : Obligations.RecursiveStrategyAgrees := by
  intro a b p s t hengine hexec herr
  obtain ⟨hw, hbelow, hcompleted⟩ := convip_completed hengine hexec herr
  have hpend := ((MidDescent.start a b s).descend (levels := outLen s.srclen.toNat a b p) hbelow hw).pend
  rw [Nat.zero_add] at hpend
  rw [recursiveInPlace, hpend]
  exact (Overwritten.start a b s).unwind.agrees (by simp) hcompleted

/-! ### The ordered single pass -/

/-- Bit q of V is bit q mod a of source symbol q / a, and V has no bit past the end of the stream (R56). -/
theorem bufferBit_eq {a b q : Nat} {s : State} {done : List Nat} {m : Memory} (h : Overwritten a b s done m)
    (ha : 1 ≤ a) (hbelow : sourceBelow (2 ^ a) s) (hq : q / a ∉ done) :
    bufferBit a s.srclen.toNat s.srcaddr.toNat s.resetCount m q = outSymbol (sourceStream a s) 1 q := by
  unfold bufferBit
  split
  next hin =>
    have hread : q / a < s.srclen.toNat := (Nat.div_lt_iff_lt_mul ha).mpr hin
    have hnext : q + 1 ≤ (q / a + 1) * a := Nat.lt_div_mul_add ha |>.trans_eq (Nat.succ_mul _ _).symm
    have hsplit : 2 ^ (1 * q) = 2 ^ (a * (q / a)) * 2 ^ (q % a) := by rw [← pow_add, Nat.div_add_mod, Nat.one_mul]
    rw [h.source hq, ← outSymbol_readStream (c := q / a + 1) hread (.inr (by rwa [Nat.mul_one])), outSymbol, hsplit,
      ← Nat.div_div_eq_div_mul, readStream_succ, Nat.add_mul_div_left _ _ (Nat.two_pow_pos _),
      Nat.div_eq_of_lt (readStream_lt ha hbelow hread.le), Nat.zero_add, pow_one]
  next hout =>
    have hpast : 2 ^ (a * s.srclen.toNat) ≤ 2 ^ (1 * q) := by
      rw [Nat.mul_comm, Nat.one_mul]
      exact Nat.pow_le_pow_right (by omega) (Nat.not_lt.mp hout)
    rw [outSymbol, ← readStream_all, Nat.div_eq_of_lt ((readStream_lt ha hbelow le_rfl).trans_le hpast),
      Nat.zero_mod]

/-- Output symbol k has a bit in source position i (R118). -/
def DependsOn (a b k i : Nat) : Prop := ∃ j < b, (k * b + j) / a = i

/-- A symbol computed straight from the buffer is right while the positions it depends on are not overwritten. -/
theorem bufferSymbol_eq_sourceSymbol {a b k : Nat} {s : State} {done : List Nat} {m : Memory}
    (h : Overwritten a b s done m) (ha : 1 ≤ a) (hbelow : sourceBelow (2 ^ a) s)
    (hkept : ∀ i ∈ done, ¬DependsOn a b k i) :
    bufferSymbol a b s.srclen.toNat s.srcaddr.toNat s.resetCount m k = sourceSymbol a b s k := by
  have hbits : (List.range b).map (fun j => bufferBit a s.srclen.toNat s.srcaddr.toNat s.resetCount m (k * b + j)) =
      leadingGroups 1 b (sourceStream a s / 2 ^ (b * k)) := by
    refine List.map_congr_left fun j hj => ?_
    have hexp : 1 * (k * b + j) = b * k + 1 * j := by ring
    rw [bufferBit_eq h ha hbelow fun hmem => hkept _ hmem ⟨j, List.mem_range.mp hj, rfl⟩, outSymbol, outSymbol, hexp,
      pow_add, Nat.div_div_eq_div_mul]
  rw [bufferSymbol, hbits, streamValue_leadingGroups, Nat.one_mul]
  rfl

/-- The pass visits no symbol that depends on a position visited before (R118). -/
theorem passOrder_pairwise {a b : Nat} (ha : 1 ≤ a) (m : Nat) :
    (passOrder a b m).Pairwise fun i k => ¬DependsOn a b k i := by
  unfold passOrder
  split
  next hle =>
    refine List.pairwise_lt_range.imp fun {i k} hik => ?_
    rintro ⟨j, -, rfl⟩
    have hfrom : k ≤ (k * b + j) / a :=
      (Nat.le_div_iff_mul_le ha).mpr (Nat.le_add_right_of_le (Nat.mul_le_mul_left k hle))
    omega
  next hgt =>
    refine List.pairwise_reverse.mpr (List.pairwise_lt_range.imp fun {k i} hki => ?_)
    rintro ⟨j, hj, rfl⟩
    have hbelow : (k * b + j) / a < k + 1 := by
      rw [Nat.div_lt_iff_lt_mul ha]
      calc k * b + j < (k + 1) * b := by rw [Nat.succ_mul]; omega
        _ ≤ (k + 1) * a := Nat.mul_le_mul_left _ (Nat.not_le.mp hgt).le
    omega

theorem mem_passOrder (a b m k : Nat) : k ∈ passOrder a b m ↔ k < m := by
  unfold passOrder
  split <;> simp

/-- A pass in an order that overwrites nothing still needed writes the symbols it visits. -/
theorem Overwritten.pass {a b : Nat} {s : State} {done order : List Nat} {m : Memory} (h : Overwritten a b s done m)
    (ha : 1 ≤ a) (hbelow : sourceBelow (2 ^ a) s) (horder : order.Pairwise fun i k => ¬DependsOn a b k i)
    (hkept : ∀ k ∈ order, ∀ i ∈ done, ¬DependsOn a b k i) :
    Overwritten a b s (order.reverse ++ done)
      (order.foldl (fun m k => Memory.write m (s.srcaddr.toNat + k)
        (bufferSymbol a b s.srclen.toNat s.srcaddr.toNat s.resetCount m k)) m) := by
  induction order generalizing done m with
  | nil => exact h
  | cons k rest ih =>
    obtain ⟨hk, hrest⟩ := List.pairwise_cons.mp horder
    obtain ⟨hkeptK, hkeptRest⟩ := List.forall_mem_cons.mp hkept
    rw [List.reverse_cons, List.append_assoc, List.foldl_cons, bufferSymbol_eq_sourceSymbol h ha hbelow hkeptK]
    exact ih (h.write k) hrest fun i hi => List.forall_mem_cons.mpr ⟨hk i hi, hkeptRest i hi⟩

/-- Settles O44: the pass visits the m output symbols in an order that overwrites nothing still needed. -/
theorem singlePassAgrees : Obligations.SinglePassAgrees := by
  intro a b p s t hengine hexec herr
  obtain ⟨⟨ha, -⟩, hbelow, hcompleted⟩ := convip_completed hengine hexec herr
  have hpass := (Overwritten.start a b s).pass ha hbelow
    (passOrder_pairwise ha (outLen s.srclen.toNat a b p)) (by simp)
  exact hpass.agrees (by simp [mem_passOrder]) hcompleted

end Sys2Proof.Machine
end

section
/-! PROOFS. The alphabet commands (R135): a table made from a rule on the index is looked up by that rule, and
Complete writes the table's entry for each source byte over that byte. -/

namespace Sys2Proof.Machine

/-! ### Table lookup -/

theorem tableEntry_of_lt {t : List Byte} {c : Byte} (h : c.toNat < t.length) : tableEntry t c = t[c.toNat] :=
  List.getD_eq_getElem t 0 h

theorem tableEntry_map_range (f : Nat → Byte) {n : Nat} {c : Byte} (h : c.toNat < n) :
    tableEntry ((List.range n).map f) c = f c.toNat := by
  rw [tableEntry_of_lt (by simpa using h), List.getElem_map, List.getElem_range]

/-! ### Completion -/

theorem alphabetPlan_of_fits {s : State} (h : fits s.srcaddr.toNat s.srclen.toNat s) :
    alphabetPlan s = .ok (sourceRegion s) := by
  have hsrcIn : (sourceRegion s).inBounds s.bufSize = true := (inBounds_iff _ s).mpr h
  simp [alphabetPlan, hsrcIn]

/-- The index range of the table is the limit on the source bytes (R135). -/
theorem translateComplete_completed {f : Nat → Byte} {n : Nat} {s : State}
    (hsrc : fits s.srcaddr.toNat s.srclen.toNat s) (hbelow : sourceBelow n s) :
    Completed (sourceRegion s) (fun k => f (readByte s (s.srcaddr.toNat + k)).toNat) s
      (translateComplete ((List.range n).map f) s) := by
  have hlimit : ((List.range n).map f).length = n := by simp
  rw [translateComplete, alphabetPlan_of_fits hsrc, hlimit, completeWith_of_below hbelow]
  refine finish_completed hsrc (by simp [sourceRegion]) fun k hk => ?_
  have hk' : k < s.srclen.toNat := by simpa using hk
  rw [List.getElem_map, getElem_readSource, tableEntry_map_range f (hbelow k hk')]

/-- On the engine's turn a table's command completes with the table's rule on every source byte. -/
theorem dataCommand_translate_completes (w : Word) {f : Nat → Byte} {n : Nat} {s : State}
    (hengine : s.agent = .engine) (hsrc : fits s.srcaddr.toNat s.srclen.toNat s) (hbelow : sourceBelow n s) :
    ∃ t, dataCommand w (translateComplete ((List.range n).map f)) s = .next t ∧
      Completed (sourceRegion s) (fun k => f (readByte s (s.srcaddr.toNat + k)).toNat) s t :=
  ⟨_, dataCommand_engine _ _ hengine, translateComplete_completed hsrc hbelow⟩

/-- Every byte is an index of a reverse table. -/
theorem sourceBelow_256 (s : State) : sourceBelow 256 s := fun _ _ => BitVec.isLt _

/-- Settles O23: T_N2P32 is its rule on the indices below 32. -/
theorem n2p32Completes : Obligations.N2p32Completes := fun _ hengine hsrc hbelow =>
  dataCommand_translate_completes (encode .n2p32) hengine hsrc hbelow

/-- Settles O24: T_P2N32 is its rule on every byte. -/
theorem p2n32Completes : Obligations.P2n32Completes := fun s hengine hsrc =>
  dataCommand_translate_completes (encode .p2n32) hengine hsrc (sourceBelow_256 s)

/-- Settles O25: T_N2P64 is its rule on the indices below 64. -/
theorem n2p64Completes : Obligations.N2p64Completes := fun _ hengine hsrc hbelow =>
  dataCommand_translate_completes (encode .n2p64) hengine hsrc hbelow

/-- Settles O26: T_P2N64 is its rule on every byte. -/
theorem p2n64Completes : Obligations.P2n64Completes := fun s hengine hsrc =>
  dataCommand_translate_completes (encode .p2n64) hengine hsrc (sourceBelow_256 s)

/-! ### The laws of the tables (R140)

Each table's rule is stated on numbers, so that a law is one case split on the ranges of R131 to R134. -/

theorem toNat_tableEntry_N2P32 {v : Byte} (h : v.toNat < 32) :
    (tableEntry tableN2P32 v).toNat = if v.toNat ≤ 25 then 0x61 + v.toNat else 0x32 + (v.toNat - 26) := by
  rw [tableN2P32, tableEntry_map_range _ h]
  simp only [apply_ite BitVec.toNat, BitVec.toNat_ofNat]
  grind

theorem toNat_tableEntry_P2N32 (c : Byte) :
    (tableEntry tableP2N32 c).toNat =
      if 0x61 ≤ c.toNat ∧ c.toNat ≤ 0x7A then c.toNat - 0x61
      else if 0x32 ≤ c.toNat ∧ c.toNat ≤ 0x37 then c.toNat - 0x32 + 26 else 0 := by
  rw [tableP2N32, tableEntry_map_range _ c.isLt]
  simp only [apply_ite BitVec.toNat, BitVec.ofNat_eq_ofNat, BitVec.toNat_ofNat]
  grind

theorem toNat_tableEntry_N2P64 {v : Byte} (h : v.toNat < 64) :
    (tableEntry tableN2P64 v).toNat =
      if v.toNat = 0 then 0x2C else if v.toNat = 1 then 0x2D
      else if v.toNat ≤ 11 then 0x30 + (v.toNat - 2)
      else if v.toNat ≤ 37 then 0x41 + (v.toNat - 12) else 0x61 + (v.toNat - 38) := by
  rw [tableN2P64, tableEntry_map_range _ h]
  simp only [apply_ite BitVec.toNat, BitVec.ofNat_eq_ofNat, BitVec.toNat_ofNat]
  grind

theorem toNat_tableEntry_P2N64 (c : Byte) :
    (tableEntry tableP2N64 c).toNat =
      if c.toNat = 0x2C then 0 else if c.toNat = 0x2D then 1
      else if 0x30 ≤ c.toNat ∧ c.toNat ≤ 0x39 then c.toNat - 0x30 + 2
      else if 0x41 ≤ c.toNat ∧ c.toNat ≤ 0x5A then c.toNat - 0x41 + 12
      else if 0x61 ≤ c.toNat ∧ c.toNat ≤ 0x7A then c.toNat - 0x61 + 38 else 0 := by
  rw [tableP2N64, tableEntry_map_range _ c.isLt]
  simp only [apply_ite BitVec.toNat, BitVec.ofNat_eq_ofNat, BitVec.toNat_ofNat]
  grind

theorem reverse_forward_32 {v : Byte} (h : v.toNat < 32) : tableEntry tableP2N32 (tableEntry tableN2P32 v) = v := by
  apply BitVec.eq_of_toNat_eq
  rw [toNat_tableEntry_P2N32, toNat_tableEntry_N2P32 h]
  grind

theorem reverse_forward_64 {v : Byte} (h : v.toNat < 64) : tableEntry tableP2N64 (tableEntry tableN2P64 v) = v := by
  apply BitVec.eq_of_toNat_eq
  rw [toNat_tableEntry_P2N64, toNat_tableEntry_N2P64 h]
  grind

theorem tableEntry_P2N32_lt (c : Byte) : (tableEntry tableP2N32 c).toNat < 32 := by
  rw [toNat_tableEntry_P2N32]
  grind

theorem tableEntry_P2N64_lt (c : Byte) : (tableEntry tableP2N64 c).toNat < 64 := by
  rw [toNat_tableEntry_P2N64]
  grind

/-- The alphabet of a table is what its entries give. -/
theorem mem_table_iff {t : List Byte} {n : Nat} (hlen : t.length = n) (hn : n ≤ 256) {c : Byte} :
    c ∈ t ↔ ∃ v : Byte, v.toNat < n ∧ tableEntry t v = c := by
  subst hlen
  constructor
  · intro h
    obtain ⟨i, hi, rfl⟩ := List.mem_iff_getElem.mp h
    have hindex : (BitVec.ofNat 8 i).toNat = i := Nat.mod_eq_of_lt (Nat.lt_of_lt_of_le hi hn)
    have hv : (BitVec.ofNat 8 i).toNat < t.length := hindex.symm ▸ hi
    exact ⟨_, hv, (tableEntry_of_lt hv).trans (by simp only [hindex])⟩
  · rintro ⟨v, hv, rfl⟩
    exact tableEntry_of_lt hv ▸ List.getElem_mem hv

/-- A left inverse of a table that gives only its indices inverts it exactly on its alphabet. -/
theorem forward_reverse_iff_mem {forward reverse : List Byte} {n : Nat} (hlen : forward.length = n) (hn : n ≤ 256)
    (hinv : ∀ v : Byte, v.toNat < n → tableEntry reverse (tableEntry forward v) = v)
    (hrange : ∀ c : Byte, (tableEntry reverse c).toNat < n) (c : Byte) :
    tableEntry forward (tableEntry reverse c) = c ↔ c ∈ forward := by
  rw [mem_table_iff hlen hn]
  constructor
  · exact fun h => ⟨tableEntry reverse c, hrange c, h⟩
  · rintro ⟨v, hv, rfl⟩
    rw [hinv v hv]

theorem length_tableN2P32 : tableN2P32.length = 32 := by simp [tableN2P32]
theorem length_tableN2P64 : tableN2P64.length = 64 := by simp [tableN2P64]

theorem character_of_mem_tableN2P32 {c : Byte} (h : c ∈ tableN2P32) :
    (0x61 ≤ c.toNat ∧ c.toNat ≤ 0x7A) ∨ (0x32 ≤ c.toNat ∧ c.toNat ≤ 0x37) := by
  obtain ⟨v, hv, rfl⟩ := (mem_table_iff length_tableN2P32 (by decide)).mp h
  rw [toNat_tableEntry_N2P32 hv]
  grind

/-- Settles O45: the reverse tables are left inverses with values in range, so each inverts its forward table
exactly on the alphabet. -/
theorem tableLaws : Obligations.TableLaws :=
  ⟨fun _ => reverse_forward_32, fun _ => reverse_forward_64, tableEntry_P2N32_lt, tableEntry_P2N64_lt,
    forward_reverse_iff_mem length_tableN2P32 (by decide) (fun _ => reverse_forward_32) tableEntry_P2N32_lt,
    forward_reverse_iff_mem length_tableN2P64 (by decide) (fun _ => reverse_forward_64) tableEntry_P2N64_lt,
    fun _ => character_of_mem_tableN2P32⟩

end Sys2Proof.Machine
end

section
/-! PROOFS. The control of commands (R150 to R155): what a CMD write does in each phase, when the engine steps, and
that a waiting host sees its command end, by induction on the polls its WAIT carries. -/

namespace Sys2Proof.Machine

/-! ### A submitted word, one equation a phase -/

theorem submit_of_err (run : State → State) {s : State} (h : s.err = true) : submit run s = s := by
  simp [submit, h]

theorem submit_of_busy (run : State → State) {s : State} (herr : s.err = false) (hbusy : s.busy = true) :
    submit run s = raiseBusy [] s := by
  simp [submit, herr, hbusy]

theorem submit_of_ready (run : State → State) {s : State} (herr : s.err = false) (hidle : s.busy = false) :
    submit run s = run s := by
  simp [submit, herr, hidle]

/-! ### The CMD write as a step -/

/-- The entry's value is read before the entry is taken off the script. -/
theorem step_writeCmd {s : State} {v : Value} {rest : List Event} (h : s.script = .writeReg .cmd v :: rest) :
    step s = submitWord (valueOf v s) { s with script := rest, agent := .host } :=
  step_of_cons h

theorem submitWord_of_decode {w : Word} {i : Instr} (h : decode w = .ok i) (s : State) :
    submitWord w s = exec i s := by
  simp only [submitWord, h]

theorem submitWord_of_illegal {w : Word} (h : legalWord w = false) (s : State) :
    submitWord w s = .next (submitIllegal s) := by
  cases hdec : decode w with
  | error e => simp only [submitWord, hdec]
  | ok i =>
    have hlegal : legalWord w = true := (legalWordsDecode w).mpr ⟨i, hdec⟩
    simp [h] at hlegal

/-- Settles O10. -/
theorem stepSubmitsCommand : Obligations.StepSubmitsCommand := by
  intro s v rest i hscript hdec
  rw [step_writeCmd hscript, submitWord_of_decode hdec]

/-- Settles O13: an illegal word is submitted like any other, so ERR and BUSY treat it alike. -/
theorem illegalWordInErrAndBusy : Obligations.IllegalWordInErrAndBusy := by
  intro s v rest hscript hillegal
  have hstep : step s = .next (submitIllegal { s with script := rest, agent := .host }) :=
    (step_writeCmd hscript).trans (submitWord_of_illegal hillegal _)
  exact ⟨fun herr => hstep.trans (congrArg Host.Outcome.next (submit_of_err _ herr)), fun herr hbusy =>
    ⟨_, hstep.trans (congrArg Host.Outcome.next (submit_of_busy _ herr hbusy)), raiseBusy_faultLosing _⟩⟩

/-! ### Each command on the host's turn -/

/-- The CMD write of a data command submits its word (R150). -/
theorem exec_host_of_isData {i : Instr} {s : State} (hi : i.isData = true) (hhost : s.agent = .host) :
    exec i s = .next (submit (latch (encode i)) s) := by
  cases i with
  | nop | srst => cases hi
  | conv | convip | n2p32 | p2n32 | n2p64 | p2n64 => exact dataCommand_host _ _ hhost

theorem exec_nop_host {s : State} (hhost : s.agent = .host) : exec .nop s = .next (submit id s) := by
  simp only [exec, execNop, hhost]

theorem exec_srst_host {s : State} (hhost : s.agent = .host) : exec .srst s = .next (softReset s) := by
  simp only [exec, execSrst, hhost]

/-- Settles O15: with ERR and BUSY 0 the word submitted is latched. -/
theorem dataCommandAccepted : Obligations.DataCommandAccepted := by
  intro i s hi hhost herr hidle
  refine ⟨latch (encode i) s, ?_, rfl, statusAccepted_busy s.status, statusAccepted_done s.status,
    fun _ hj => statusAccepted_high s.status hj, rfl⟩
  rw [exec_host_of_isData hi hhost, submit_of_ready _ herr hidle]

/-- Settles O18: in phase ERR the write is ignored, in IDLE and DONE the command does nothing. -/
theorem nopChangesNothing : Obligations.NopChangesNothing := by
  intro s hhost hidle
  rw [exec_nop_host hhost]
  cases herr : s.err with
  | true => rw [submit_of_err id herr]
  | false => rw [submit_of_ready id herr hidle, id]

theorem softReset_buf_of_idle {s : State} (h : s.busy = false) : (softReset s).buf = s.buf := by
  simp [softReset_buf, h]

theorem softReset_freeCount_of_idle {s : State} (h : s.busy = false) : (softReset s).freeCount = s.freeCount := by
  simp [softReset_freeCount, h]

/-- SRST spoils the bytes of AbortRegion at most (R153, R171). -/
theorem softReset_sameOutside (s : State) : sameOutside (abortRegion s) s (softReset s) := by
  intro x hx
  rw [readByte, softReset_resetCount]
  cases hb : s.busy with
  | false => rw [softReset_buf_of_idle hb, readByte]
  | true =>
    have hkept := readByte_unspecify (s := s) (mt (mem_addresses (abortRegion s) x).mp hx)
    rw [readByte, unspecify_resetCount] at hkept
    rwa [softReset_buf, if_pos hb]

/-- Settles O19: SRST is `softReset` in every phase. -/
theorem srstClearsRegisters : Obligations.SrstClearsRegisters := fun s hhost =>
  ⟨softReset s, exec_srst_host hhost, softReset_cmdl s, softReset_status s, softReset_srcaddr s, softReset_srclen s,
    softReset_dstaddr s, softReset_dstlen s, softReset_hidden s, softReset_lastAddr s, softReset_resetCount s,
    softReset_script s, softReset_answer s, softReset_agent s, softReset_sameOutside s,
    fun hidle => ⟨softReset_buf_of_idle hidle, softReset_freeCount_of_idle hidle⟩⟩

/-! ### The engine's turn as a step -/

theorem step_complete {s : State} {rest : List Event} (h : s.script = .complete :: rest) :
    step s = engineStep { s with script := rest, agent := .host } :=
  step_of_cons h

/-- When the polls of a WAIT are over the engine steps, and the WAIT stays for the last read (R79; log entry 4). -/
theorem step_wait_zero_of_busy {s : State} {rest : List Event} (h : s.script = .wait 0 :: rest)
    (hbusy : s.busy = true) : step s = engineStep { s with agent := .host } := by
  have hengine : step s = engineStep { s with script := .wait 0 :: rest, agent := .host } :=
    (step_of_cons h).trans (waitStep_zero_of_busy hbusy)
  rwa [← h] at hengine

/-- Settles O14. -/
theorem idleEngineDoesNothing : Obligations.IdleEngineDoesNothing := by
  intro s hidle
  exact ⟨fun hscript => (step_of_nil hscript).trans (engineStep_of_idle hidle),
    fun _ hscript => (step_complete hscript).trans (engineStep_of_idle hidle)⟩

/-- Settles O11: each of the three scripts gives the engine its step. -/
theorem stepCompletesCommand : Obligations.StepCompletesCommand := by
  intro s i hbusy hdec
  exact ⟨fun hscript => (step_of_nil hscript).trans (engineStep_of_decode hbusy hdec),
    fun _ hscript => (step_complete hscript).trans (engineStep_of_decode hbusy hdec),
    fun _ hscript => (step_wait_zero_of_busy hscript hbusy).trans (engineStep_of_decode hbusy hdec)⟩

/-! ### A host that waits -/

@[simp] theorem statusRead_busy (st : Word) : statusBusy (statusRead st) = statusBusy st := by
  rw [statusBusy, statusRead_getLsbD]
  exact Bool.and_true _

/-- A read while BUSY takes one poll off the WAIT (R79). -/
theorem step_wait_succ_of_busy {s : State} {k : Nat} {rest : List Event} (h : s.script = .wait (k + 1) :: rest)
    (hbusy : s.busy = true) :
    step s = .next { s with script := .wait k :: rest, agent := .host, answer := statusRead s.status } :=
  (step_of_cons h).trans (waitStep_succ_of_busy k hbusy)

/-- A read that shows BUSY = 0 ends the WAIT (R79). -/
theorem step_wait_of_idle {s : State} {k : Nat} {rest : List Event} (h : s.script = .wait k :: rest)
    (hidle : s.busy = false) :
    step s = .next { s with script := rest, agent := .host, answer := statusRead s.status } :=
  (step_of_cons h).trans (waitStep_of_idle k hidle)

/-- The engine's step ends the running command, fault-free or with a fault (R155). -/
theorem engineStep_ends {s t : State} (herr : s.err = false) (hbusy : s.busy = true) (h : engineStep s = .next t) :
    t.busy = false ∧ (t.phase = .done ∨ t.phase = .err) := by
  obtain ⟨hidle, -⟩ | ⟨-, ⟨c, lost, rfl⟩ | ⟨r, out, rfl⟩⟩ := engineStep_outcome h
  · simp [hbusy] at hidle
  · exact ⟨(raiseFault_faultStatus c lost _).busy, .inr (raiseFault_phase c lost _)⟩
  · exact ⟨statusCompleted_busy s.status, .inl (finish_phase r out herr)⟩

/-- With no poll left, two steps end the WAIT: the engine's, and the read that shows BUSY = 0. -/
theorem wait_zero_ends {s : State} {rest : List Event} (hinv : s.Inv) (hbusy : s.busy = true)
    (hscript : s.script = .wait 0 :: rest) :
    ∃ t : State, Host.Core.run core 2 s = .next t ∧ t.busy = false ∧ (t.phase = .done ∨ t.phase = .err) ∧
      t.script = rest ∧ statusBusy t.answer = false := by
  obtain ⟨u, hu⟩ := engineStep_answers (s := { s with agent := .host }) hinv.busyHolds
  have hstep : step s = .next u := (step_wait_zero_of_busy hscript hbusy).trans hu
  have huscript : u.script = .wait 0 :: rest := (engineStep_script hu).trans hscript
  obtain ⟨huidle, huphase⟩ := engineStep_ends (s := { s with agent := .host }) (hinv.err_of_busy hbusy) hbusy hu
  exact ⟨{ u with script := rest, agent := .host, answer := statusRead u.status },
    (run_succ_of_step 1 hstep).trans (run_succ_of_step 0 (step_wait_of_idle huscript huidle)),
    huidle, huphase, rfl, (statusRead_busy u.status).trans huidle⟩

/-- Settles O58, by induction on the polls: each read that shows BUSY keeps the invariant and takes one off. -/
theorem waitEndsCommand : Obligations.WaitEndsCommand := by
  intro s k rest hinv hbusy hscript
  induction k generalizing s with
  | zero => exact wait_zero_ends hinv hbusy hscript
  | succ k ih =>
    have hstep := step_wait_succ_of_busy hscript hbusy
    rw [run_succ_of_step (k + 2) hstep]
    exact ih _ (stepKeepsInvariant s _ hinv hstep) hbusy rfl

end Sys2Proof.Machine
end

section
/-! PROOFS. The faults (R160 to R173): which check of a Complete step fails first, and what that fault changes; what a
command does while BUSY and in phase ERR; which bytes a fault loses. -/

namespace Sys2Proof.Machine

/-! ### The STATUS words -/

/-- Settles O33, word by word. -/
theorem faultStatusWords : Obligations.FaultStatusWords := by
  intro st hst
  obtain rfl | rfl | rfl : st = 0x0000 ∨ st = 0x0001 ∨ st = 0x0002 := by simpa using hst
  all_goals decide

/-- A completion keeps ERRCODE. -/
theorem statusCompleted_code (st : Word) : statusErrCode (statusCompleted st) = statusErrCode st := by
  apply BitVec.eq_of_getLsbD_eq
  intro i _
  simp only [statusErrCode, BitVec.getLsbD_extractLsb', statusCompleted_high st (show 2 ≤ 4 + i by omega)]

/-! ### The bytes a fault loses -/

/-- The bytes made unspecified are free values in the order of the list, where no address comes twice. -/
theorem readByte_unspecify_getElem {l : List Nat} {s : State} (hnodup : l.Nodup) {j : Nat} (hj : j < l.length) :
    readByte (unspecify l s) l[j] = Config.freeByte (s.freeCount + j) := by
  induction l generalizing s j with
  | nil => simp at hj
  | cons a rest ih =>
    obtain ⟨ha, hrest⟩ := List.nodup_cons.mp hnodup
    rw [unspecify]
    cases j with
    | zero => exact (readByte_unspecify ha).trans (byteAt_write_same _ _ a _)
    | succ j =>
      rw [List.getElem_cons_succ, ih hrest, Nat.add_assoc, Nat.add_comm 1]

theorem nodup_addresses (r : Region) : r.addresses.Nodup :=
  List.nodup_range.map (add_right_injective r.base)

theorem getElem_addresses (r : Region) {j : Nat} (hj : j < r.addresses.length) : r.addresses[j] = r.base + j := by
  simp [Region.addresses]

/-- A fault that loses a region spoils no byte outside it (R171). -/
theorem raiseFault_addresses_faultLosing (c : ErrCode) (r : Region) (s : State) :
    FaultLosing c r s (raiseFault c r.addresses s) :=
  raiseFault_faultLosing c s fun x hx => (mem_addresses r x).mp hx

/-- Settles O32: byte j of the region is the j-th address made unspecified. -/
theorem lostBytesAreFree : Obligations.LostBytesAreFree := by
  intro c r s
  refine ⟨fun j hj => ?_, ?_, ?_⟩
  · have hj' : j < r.addresses.length := by rwa [length_addresses]
    rw [← getElem_addresses r hj']
    exact readByte_unspecify_getElem (nodup_addresses r) hj'
  · obtain ⟨-, hsame, -⟩ := raiseFault_addresses_faultLosing c r s
    exact hsame
  · rw [raiseFault_freeCount, length_addresses]

/-! ### A CMD write that does not run -/

theorem raiseFault_faultOnly (c : ErrCode) (s : State) : FaultOnly c s (raiseFault c [] s) :=
  ⟨raiseFault_faultStatus c [] s, by rw [raiseFault_eq]; rfl⟩

/-- Settles O12: the word is submitted, and with ERR and BUSY 0 it raises ERR_ILLEGAL. -/
theorem illegalWordFaults : Obligations.IllegalWordFaults := by
  intro s v rest hscript hillegal herr hidle
  have hstep : step s = .next (submitIllegal { s with script := rest, agent := .host }) :=
    (step_writeCmd hscript).trans (submitWord_of_illegal hillegal _)
  obtain ⟨hstatus, hrest⟩ := raiseFault_faultOnly .illegal { s with script := rest, agent := .host }
  exact ⟨_, hstep.trans (congrArg Host.Outcome.next (submit_of_ready _ herr hidle)), ⟨hstatus, hrest⟩,
    hstatus.code.trans (if_neg (Bool.eq_false_iff.mp herr))⟩

/-- Every command but SRST is submitted, whatever it then runs (R150). -/
theorem exec_host_submits {i : Instr} {s : State} (hi : i ≠ .srst) (hhost : s.agent = .host) :
    ∃ run, exec i s = .next (submit run s) := by
  cases i with
  | nop => exact ⟨id, exec_nop_host hhost⟩
  | srst => exact absurd rfl hi
  | conv | convip | n2p32 | p2n32 | n2p64 | p2n64 => exact ⟨_, exec_host_of_isData rfl hhost⟩

/-- Settles O16. -/
theorem commandIgnoredInErr : Obligations.CommandIgnoredInErr := by
  intro i s hi hhost herr
  obtain ⟨run, hexec⟩ := exec_host_submits hi hhost
  rw [hexec, submit_of_err run herr]

/-- Settles O17: a word submitted while BUSY names no byte, so AbortRegion alone is lost. -/
theorem commandWhileBusyAborts : Obligations.CommandWhileBusyAborts := by
  intro i s hi hhost herr hbusy
  obtain ⟨run, hexec⟩ := exec_host_submits hi hhost
  exact ⟨_, hexec.trans (congrArg _ (submit_of_busy run herr hbusy)), raiseBusy_faultLosing s⟩

/-! ### The order of the checks (R168)

`convPlan_of_legal`, `convipPlan_of_legal` and `alphabetPlan_of_fits` say when the checks pass. -/

theorem convPlan_of_illegal_width {a b : Nat} (s : State) (hw : ¬(1 ≤ a ∧ a ≤ 8 ∧ 1 ≤ b ∧ b ≤ 8)) :
    convPlan a b s = .error .width := by
  have hwidths : widthsLegal a b = false := decide_eq_false hw
  simp [convPlan, hwidths]

theorem convipPlan_of_illegal_width {a b : Nat} (p : Bool) (s : State) (hw : ¬(1 ≤ a ∧ a ≤ 8 ∧ 1 ≤ b ∧ b ≤ 8)) :
    convipPlan a b p s = .error .width := by
  have hwidths : widthsLegal a b = false := decide_eq_false hw
  simp [convipPlan, hwidths]

theorem not_both_inBounds {r q : Region} {s : State} (h : ¬(fits r.base r.len s ∧ fits q.base q.len s)) :
    (r.inBounds s.bufSize && q.inBounds s.bufSize) = false := by
  rwa [Bool.eq_false_iff, ne_eq, Bool.and_eq_true, inBounds_iff, inBounds_iff]

theorem convPlan_of_not_fits {a b : Nat} {s : State} (hw : 1 ≤ a ∧ a ≤ 8 ∧ 1 ≤ b ∧ b ≤ 8)
    (h : ¬(fits s.srcaddr.toNat s.srclen.toNat s ∧ fits s.dstaddr.toNat (outLen s.srclen.toNat a b true) s)) :
    convPlan a b s = .error .bounds := by
  have hwidths : widthsLegal a b = true := decide_eq_true hw
  have hbounds := not_both_inBounds (r := sourceRegion s) (q := convRegion a b s) h
  rw [convPlan, hwidths, hbounds]
  rfl

theorem convipPlan_of_not_fits {a b : Nat} {p : Bool} {s : State} (hw : 1 ≤ a ∧ a ≤ 8 ∧ 1 ≤ b ∧ b ≤ 8)
    (h : ¬(fits s.srcaddr.toNat s.srclen.toNat s ∧ fits s.srcaddr.toNat (outLen s.srclen.toNat a b p) s)) :
    convipPlan a b p s = .error .bounds := by
  have hwidths : widthsLegal a b = true := decide_eq_true hw
  have hbounds := not_both_inBounds (r := sourceRegion s) (q := convipRegion a b p s) h
  rw [convipPlan, hwidths, hbounds]
  rfl

theorem alphabetPlan_of_not_fits {s : State} (h : ¬fits s.srcaddr.toNat s.srclen.toNat s) :
    alphabetPlan s = .error .bounds := by
  have hbounds : (sourceRegion s).inBounds s.bufSize = false := by
    rwa [Bool.eq_false_iff, ne_eq, inBounds_iff]
  rw [alphabetPlan, hbounds]
  rfl

theorem overlaps_of_shared_address {r q : Region} {x : Nat} (hr : r.base ≤ x ∧ x < r.base + r.len)
    (hq : q.base ≤ x ∧ x < q.base + q.len) : r.overlaps q = true :=
  decide_eq_true (by omega)

theorem convPlan_of_overlap {a b : Nat} {s : State} (hw : 1 ≤ a ∧ a ≤ 8 ∧ 1 ≤ b ∧ b ≤ 8)
    (hsrc : fits s.srcaddr.toNat s.srclen.toNat s)
    (hdst : fits s.dstaddr.toNat (outLen s.srclen.toNat a b true) s)
    (hoverlap : (sourceRegion s).overlaps (convRegion a b s) = true) : convPlan a b s = .error .overlap := by
  have hwidths : widthsLegal a b = true := decide_eq_true hw
  have hsrcIn : (sourceRegion s).inBounds s.bufSize = true := (inBounds_iff _ s).mpr hsrc
  have hdstIn : (convRegion a b s).inBounds s.bufSize = true := (inBounds_iff _ s).mpr hdst
  rw [convPlan, hwidths, hsrcIn, hdstIn, hoverlap]
  rfl

/-! ### What a Complete step that faults changes -/

/-- A failed check changes STATUS only (R162 to R164). -/
theorem completeWith_faultOnly {plan : Except ErrCode Region} {c : ErrCode} (limit : Nat)
    (output : List Byte → List Byte) (s : State) (h : plan = .error c) :
    FaultOnly c s (completeWith plan limit output s) := by
  subst h
  exact raiseFault_faultOnly c s

/-- A symbol out of range loses the destination (R165, R171). -/
theorem completeWith_faultLosing {plan : Except ErrCode Region} {r : Region} {limit : Nat}
    (output : List Byte → List Byte) {s : State} (h : plan = .ok r) (hsymbol : ¬sourceBelow limit s) :
    FaultLosing .symbol r s (completeWith plan limit output s) := by
  subst h
  obtain ⟨c, hplan, -⟩ | ⟨_, hplan, -, heq⟩ | ⟨_, -, hbelow, -⟩ := completeWith_cases (.ok r) limit output s
  · cases hplan
  · cases hplan
    exact heq ▸ raiseFault_addresses_faultLosing .symbol r s
  · exact absurd ((readSource_below limit s).mp hbelow) hsymbol

/-- Settles O28: the width check is the first. -/
theorem widthFaultComesFirst : Obligations.WidthFaultComesFirst := by
  intro a b p s hengine hw
  exact ⟨⟨_, dataCommand_engine _ _ hengine, completeWith_faultOnly _ _ s (convPlan_of_illegal_width s hw)⟩,
    ⟨_, dataCommand_engine _ _ hengine, completeWith_faultOnly _ _ s (convipPlan_of_illegal_width p s hw)⟩⟩

/-- Settles O29: the bounds check is the next, and the only one of the alphabet commands. -/
theorem boundsFaultBeforeAccess : Obligations.BoundsFaultBeforeAccess := by
  intro s hengine
  refine ⟨fun a b hw h => ?_, fun a b p hw h => ?_, fun i hi h => ?_⟩
  · exact ⟨_, dataCommand_engine _ _ hengine, completeWith_faultOnly _ _ s (convPlan_of_not_fits hw h)⟩
  · exact ⟨_, dataCommand_engine _ _ hengine, completeWith_faultOnly _ _ s (convipPlan_of_not_fits hw h)⟩
  · obtain rfl | rfl | rfl | rfl : i = .n2p32 ∨ i = .p2n32 ∨ i = .n2p64 ∨ i = .p2n64 := by simpa using hi
    all_goals exact ⟨_, dataCommand_engine _ _ hengine, completeWith_faultOnly _ _ s (alphabetPlan_of_not_fits h)⟩

/-- Settles O30: the overlap check is CONV's last, before any symbol is read. -/
theorem overlapFaultBeforeAccess : Obligations.OverlapFaultBeforeAccess := by
  intro a b s x hengine hw hsrc hdst hxsrc hxdst
  have hoverlap : (sourceRegion s).overlaps (convRegion a b s) = true := overlaps_of_shared_address hxsrc hxdst
  exact ⟨_, dataCommand_engine _ _ hengine, completeWith_faultOnly _ _ s (convPlan_of_overlap hw hsrc hdst hoverlap)⟩

/-- The index range of the table is the limit on the source bytes (R135). -/
theorem translateComplete_faultLosing {table : List Byte} {n : Nat} {s : State} (hlen : table.length = n)
    (hsrc : fits s.srcaddr.toNat s.srclen.toNat s) (hsymbol : ¬sourceBelow n s) :
    FaultLosing .symbol (sourceRegion s) s (translateComplete table s) :=
  completeWith_faultLosing _ (alphabetPlan_of_fits hsrc) (hlen ▸ hsymbol)

/-- Settles O31: the checks pass, so the fault is the symbol's and loses the command's destination. -/
theorem symbolFaultSpoilsDestination : Obligations.SymbolFaultSpoilsDestination := by
  intro s hengine hsrc
  refine ⟨fun a b hw hdst hdisjoint hsymbol => ?_, fun a b p hw hdst hsymbol => ?_, fun hsymbol => ?_,
    fun hsymbol => ?_⟩
  · exact ⟨_, dataCommand_engine _ _ hengine,
      completeWith_faultLosing _ (convPlan_of_legal hw hsrc hdst hdisjoint) hsymbol⟩
  · exact ⟨_, dataCommand_engine _ _ hengine,
      completeWith_faultLosing _ (convipPlan_of_legal hw hsrc hdst) hsymbol⟩
  · exact ⟨_, dataCommand_engine _ _ hengine, translateComplete_faultLosing length_tableN2P32 hsrc hsymbol⟩
  · exact ⟨_, dataCommand_engine _ _ hengine, translateComplete_faultLosing length_tableN2P64 hsrc hsymbol⟩

/-! ### AbortRegion (R171) -/

theorem abortRegion_of_ok {i : Instr} {r : Region} {s : State} (hdec : decode s.cmdl = .ok i)
    (hplan : commandPlan i s = .ok r) : abortRegion s = r := by
  simp only [abortRegion, hdec, hplan]

theorem abortRegion_of_error {i : Instr} {c : ErrCode} {s : State} (hdec : decode s.cmdl = .ok i)
    (hplan : commandPlan i s = .error c) : abortRegion s = ⟨0, 0⟩ := by
  simp only [abortRegion, hdec, hplan]

/-- Where `Passes` says when the checks of the command in CMDL pass, and with which destination, it decides
AbortRegion. -/
theorem abortRegion_of_checks {Passes : Prop} {i : Instr} {r : Region} {s : State} (hdec : decode s.cmdl = .ok i)
    (hok : Passes → commandPlan i s = .ok r) (hpasses : ∀ q, commandPlan i s = .ok q → Passes) :
    (Passes → abortRegion s = r) ∧ (¬Passes → (abortRegion s).len = 0) := by
  refine ⟨fun h => abortRegion_of_ok hdec (hok h), fun h => ?_⟩
  cases hplan : commandPlan i s with
  | ok q => exact absurd (hpasses q hplan) h
  | error c => rw [abortRegion_of_error hdec hplan]

/-- Settles O20: for each kind of command its checks pass exactly under the conditions named. -/
theorem abortRegionIsDestination : Obligations.AbortRegionIsDestination := by
  intro s
  refine ⟨fun a b ha hb hcmdl => ?_, fun a b p ha hb hcmdl => ?_, fun i hi hcmdl => ?_⟩
  · have hdec : decode s.cmdl = .ok (.conv a b) :=
      decode_eq_ok_iff.mpr ⟨by simp [Instr.wellFormed, widthFits, ha, hb], hcmdl.symm⟩
    refine abortRegion_of_checks hdec (fun ⟨hw, hsrc, hdst, hdisjoint⟩ => ?_) fun q hq => ?_
    · exact convPlan_of_legal hw hsrc hdst (Bool.eq_false_iff.mpr hdisjoint)
    · obtain ⟨hw, rfl, hsrc, hdst, hdisjoint⟩ := convPlan_ok hq
      exact ⟨hw, hsrc, hdst, Bool.eq_false_iff.mp hdisjoint⟩
  · have hdec : decode s.cmdl = .ok (.convip a b p) :=
      decode_eq_ok_iff.mpr ⟨by simp [Instr.wellFormed, widthFits, ha, hb], hcmdl.symm⟩
    refine abortRegion_of_checks hdec (fun ⟨hw, hsrc, hdst⟩ => convipPlan_of_legal hw hsrc hdst) fun q hq => ?_
    obtain ⟨hw, rfl, hsrc, hdst⟩ := convipPlan_ok hq
    exact ⟨hw, hsrc, hdst⟩
  · have hfits : ∀ q, alphabetPlan s = .ok q → fits s.srcaddr.toNat s.srclen.toNat s := by
      intro q hq
      obtain ⟨rfl, hsrc⟩ := alphabetPlan_ok hq
      exact hsrc
    obtain rfl | rfl | rfl | rfl : i = .n2p32 ∨ i = .p2n32 ∨ i = .n2p64 ∨ i = .p2n64 := by simpa using hi
    all_goals
      have hdec := decode_eq_ok_iff.mpr ⟨rfl, hcmdl.symm⟩
      exact abortRegion_of_checks hdec alphabetPlan_of_fits hfits

/-! ### Phase ERR lasts (R172) -/

theorem phase_eq_err_iff {s : State} : s.phase = .err ↔ s.err = true := by
  refine ⟨fun h => ?_, fun h => by simp [State.phase, h]⟩
  unfold State.phase at h
  split_ifs at h with herr
  exact herr

/-- Of the updates that leave ERR 1 none changes the code it recorded. -/
theorem Update.errCode_eq {s t : State} (h : Update s t) (hs : s.err = true) (ht : t.err = true) :
    statusErrCode t.status = statusErrCode s.status := by
  cases h with
  | same | readReg | readBuf | writeBuf | setSrcaddr | setSrclen | setDstaddr => rfl
  | readBufBusy => exact (raiseBusy_faultStatus [] s).code.trans (if_pos hs)
  | accept _ herr => simp [hs] at herr
  | fault c => exact (raiseFault_faultStatus c _ s).code.trans (if_pos hs)
  | complete => exact statusCompleted_code s.status
  | softReset | hardwareReset => simp [← phase_eq_err_iff] at ht

/-- A fault sets ERR, and a completion keeps it. -/
theorem EngineOutcome.err {s t : State} (h : EngineOutcome s t) (hs : s.err = true) : t.err = true := by
  obtain ⟨c, lost, rfl⟩ | ⟨r, out, rfl⟩ := h
  · exact (raiseFault_faultStatus c lost s).err
  · exact (statusCompleted_err s.status).trans hs

/-- Only a reset leaves phase ERR (R36, R172). -/
theorem step_keeps_err {s t : State} (hs : s.err = true) (h : step s = .next t) (hreset : ¬s.resetsNext) :
    t.err = true := by
  by_cases hnext : s.engineNext
  · obtain ⟨_, _, _, rfl⟩ | ⟨-, _, hout⟩ := step_outcome_of_engineNext hnext h
    · exact hs
    · exact hout.err hs
  · have hphase := phase_eq_err_iff.mpr hs
    obtain (hkept | ⟨-, hto⟩) | ⟨hfrom, -, -⟩ | ⟨-, hresets⟩ := hostNext_phase hnext h
    · exact phase_eq_err_iff.mp (hkept.trans hphase)
    · exact phase_eq_err_iff.mp hto
    · simp [hphase] at hfrom
    · exact absurd hresets hreset

/-- A CMD write in phase ERR is taken off the script and changes nothing, unless it is SRST's. -/
theorem step_writeCmd_of_err {s : State} {v : Value} {rest : List Event} (hs : s.err = true)
    (hscript : s.script = .writeReg .cmd v :: rest) (hreset : valueOf v s ≠ 0xF000) :
    step s = .next { s with script := rest, agent := .host } := by
  cases hlegal : legalWord (valueOf v s) with
  | false =>
    obtain ⟨hignored, -⟩ := illegalWordInErrAndBusy s v rest hscript hlegal
    exact hignored hs
  | true =>
    obtain ⟨i, hdec⟩ := (legalWordsDecode _).mp hlegal
    have hi : i ≠ .srst := by
      rintro rfl
      exact hreset (eq_F000_of_decode hdec)
    rw [stepSubmitsCommand s v rest i hscript hdec]
    exact commandIgnoredInErr i _ hi rfl hs

/-- Settles O55: only a reset clears ERR, and while ERR stays no update changes the code. -/
theorem errIsSticky : Obligations.ErrIsSticky := by
  intro s t hs hstep hreset
  have ht : t.err = true := step_keeps_err hs hstep hreset
  obtain ⟨_, _, hu⟩ := step_updatesTo hstep
  refine ⟨ht, hu.errCode_eq hs ht, fun v rest hscript => ?_⟩
  have hword : valueOf v s ≠ 0xF000 := fun hw => hreset (.inr ⟨v, by rw [hscript]; rfl, hw⟩)
  rw [step_writeCmd_of_err hs hscript hword] at hstep
  injection hstep with hstep
  exact hstep.symm

end Sys2Proof.Machine
end

section
/-! PROOFS. The hardware reset of the platform (R35, R190): what it leaves BUF to read as, and the step that takes
it off the script. Its registers are the `hardwareReset_` lemmas of the laws. -/

namespace Sys2Proof.Machine

/-- Where BUF lists nothing, every byte is the one of the last hardware reset (U6; log entry 2). -/
theorem readByte_of_buf_eq_nil {s : State} (h : s.buf = []) (x : Nat) :
    readByte s x = Config.powerOnByte s.resetCount x := by
  rw [readByte, h]
  rfl

theorem readByte_hardwareReset (s : State) (x : Nat) :
    readByte (hardwareReset s) x = Config.powerOnByte (hardwareReset s).resetCount x :=
  readByte_of_buf_eq_nil (hardwareReset_buf s) x

/-- The entries after the reset stay pending (log entry 14). -/
theorem step_hardwareReset {s : State} {rest : List Event} (h : s.script = .hardwareReset :: rest) :
    step s = .next (hardwareReset { s with script := rest, agent := .host }) :=
  step_of_cons h

/-- Settles O9: the step is the reset of the state whose script and turn have moved on, and the update's laws
give each field. -/
theorem hardwareResetClears : Obligations.HardwareResetClears := by
  intro s rest hscript
  refine ⟨_, step_hardwareReset hscript, ?_⟩
  exact ⟨hardwareReset_cmdl _, hardwareReset_status _, hardwareReset_srcaddr _, hardwareReset_srclen _,
    hardwareReset_dstaddr _, hardwareReset_dstlen _, hardwareReset_hidden _, hardwareReset_lastAddr _,
    hardwareReset_script _, hardwareReset_answer _, hardwareReset_resetCount _, readByte_hardwareReset _⟩

end Sys2Proof.Machine
end
